-- ==== Sys2Proof/Word.lean ====
section
/-! DEFINITION. The units the spec counts in: bytes, texts as byte strings, and the fixed-width values of rule R7. -/

namespace Sys2Proof

/-- One 8-bit byte (R9). -/
abbrev Byte := BitVec 8

/-- A text: a sequence of bytes in ASCII (R80, R111). -/
abbrev Text := List Byte

/-- One RDM UID, opaque to the block (R20). -/
abbrev Uid := BitVec 48

/-- A protocol version, passed through unchecked (R23). -/
abbrev ProtocolVersion := BitVec 16

/-- A wire OpCode (R54). -/
abbrev OpCode := BitVec 16

end Sys2Proof
end

