-- ==== Sys2Proof/Config.lean ====
section
/-! DEFINITION. What one instance of the block fixes before its first request (R7, R252, R253): the numeric
parameters, the dispatch table, and the free bounds. The text collaborators are in Machine/Collaborator.lean,
because their laws speak of texts. -/

namespace Sys2Proof

/-- The decoder identifiers `DISPATCH` maps to (R32). -/
inductive DecoderId where
  | none
  | tod
  deriving DecidableEq, Repr

namespace Config

/-- `OP_TODDATA`, the TodData opcode (R7, R74). PRESUMED by the spec itself (general knowledge, D5); unsafe:
a claim that names the numeral leans on it. Claims use this name. Log entry 6. -/
def opTodData : OpCode := 0x8100

/-- `PROTVER_DEFAULT`, the construction default of protocolVersion (R7, R209). -/
def protverDefault : ProtocolVersion := 14

/-- `TOD_MAX`, the most UIDs a TodPacket holds (R7, R175). -/
def todMax : Nat := 255

/-- The longest frame the block emits, and the least `MAX_BUF_LEN` may be (R7, R147). -/
def minMaxBufLen : Nat := 1550

/-- The least `MAX_TEXT_LEN` may be (R7). -/
def minMaxTextLen : Nat := 45

/-- How far `MAX_BUF_LEN` lies above 1550: OPEN (R7, D23), so nothing is known of it. Log entry 7, safe. -/
opaque extraBufLen : Nat

/-- How far `MAX_TEXT_LEN` lies above 45: OPEN (R7, D15), so nothing is known of it. Log entry 8, safe. -/
opaque extraTextLen : Nat

/-- `MAX_BUF_LEN`: OPEN, at least 1550 (R7). -/
def maxBufLen : Nat := minMaxBufLen + extraBufLen

/-- `MAX_TEXT_LEN`: OPEN, at least 45 (R7). -/
def maxTextLen : Nat := minMaxTextLen + extraTextLen

/-- `DISPATCH`: closed and read-only, one entry besides `NONE` (R32). A constant of the instance (R252), log
entry 4. -/
def dispatch : List (OpCode × DecoderId) := [(opTodData, .tod)]

end Config
end Sys2Proof
end

