-- ==== Sys2Proof/Machine/Bytes.lean ====
section
/-! DEFINITION. Byte order and the two buffer primitives: `be_N`, `tobe_N`, `le_16`, `tole_16` (R9), `MemRead` and
`MemWrite` (R10). -/

namespace Sys2Proof.Machine

/-- The digits of `v` in base `b`, `n` of them, most significant first. -/
def digitsBE (b : Nat) : Nat → Nat → List Nat
  | 0, _ => []
  | n + 1, v => v / b ^ n % b :: digitsBE b n v

/-- The value of base-`b` digits, most significant first: the sum of R9. -/
def valueBE (b : Nat) : List Nat → Nat
  | [] => 0
  | d :: ds => d * b ^ ds.length + valueBE b ds

/-- `be_N` (R9): the first byte is the most significant. -/
def beN (w : Nat) (bs : List Byte) : BitVec w :=
  BitVec.ofNat w (valueBE 256 (bs.map BitVec.toNat))

/-- `tobe_N` (R9), in `n` bytes. -/
def toBe (n : Nat) {w : Nat} (v : BitVec w) : List Byte :=
  (digitsBE 256 n v.toNat).map (BitVec.ofNat 8)

/-- `le_16` of two bytes (R9): `b[0] + 256·b[1]`. -/
def le16 (lo hi : Byte) : BitVec 16 := BitVec.ofNat 16 (lo.toNat + 256 * hi.toNat)

/-- `tole_16` (R9): the low byte first. -/
def toLe16 (v : BitVec 16) : List Byte :=
  [BitVec.ofNat 8 (v.toNat % 256), BitVec.ofNat 8 (v.toNat / 256)]

/-- `MemRead(addr, n)` (R10): the bytes `in[addr..addr+n)`. Every call site guards it (R52). -/
def memRead (buf : List Byte) (addr n : Nat) : List Byte := (buf.drop addr).take n

/-- `MemWrite(addr, n, v)` with `n = len(v)` (R10). Every call site writes at `addr = len(out)` (R53). -/
def memWrite (out : List Byte) (addr : Nat) (v : List Byte) : List Byte :=
  out.take addr ++ v ++ out.drop (addr + v.length)

/-- `wr(v)` (R53): an append. -/
def wr (out v : List Byte) : List Byte := memWrite out out.length v

end Sys2Proof.Machine
end

