-- ==== Sys2Proof/Machine/Text.lean ====
section
/-! DEFINITION. Texts, character by character: the fixed rendering RENDER4 (R114), the alphabet (R111), and the
reference values of the OPEN text parameters (R115, R116, R117, R203). The reference values stand for no platform:
the machine uses the free collaborators of Machine/Collaborator.lean, which these only show to exist. -/

namespace Sys2Proof.Machine

/-- '.' -/
def chDot : Byte := 0x2E

/-- ':' -/
def chColon : Byte := 0x3A

/-- '0' -/
def chZero : Byte := 0x30

/-- 'x' -/
def chX : Byte := 0x78

/-- A byte in the printable range 0x21 to 0x7E (R111). -/
def printable (c : Byte) : Bool := Nat.ble 0x21 c.toNat && Nat.ble c.toNat 0x7E

/-- Every byte of a text is printable (R111). -/
def allPrintable (t : Text) : Bool := t.all printable

/-- A text contains a byte. -/
def hasByte (c : Byte) (t : Text) : Bool := t.any (· == c)

/-- The ASCII digit of a value under 10. -/
def decDigit (d : Nat) : Byte := BitVec.ofNat 8 (0x30 + d)

/-- The unsigned decimal value of a byte with no leading zeros (R114). -/
def decByte (n : Nat) : Text :=
  if n < 10 then [decDigit n]
  else if n < 100 then [decDigit (n / 10), decDigit (n % 10)]
  else [decDigit (n / 100), decDigit (n / 10 % 10), decDigit (n % 10)]

/-- Texts joined by a separator byte. -/
def joinWith (sep : Byte) : List Text → Text
  | [] => []
  | [t] => t
  | t :: u :: ts => t ++ sep :: joinWith sep (u :: ts)

/-- The parts of a text between separator bytes. -/
def splitAtByte (sep : Byte) : Text → List Text
  | [] => [[]]
  | c :: cs =>
    if c = sep then [] :: splitAtByte sep cs
    else match splitAtByte sep cs with
      | [] => [[c]]
      | p :: ps => (c :: p) :: ps

/-- RENDER4 (R114): the four bytes in dotted decimal. -/
def render4 (bits : BitVec 32) : Text :=
  joinWith chDot ((digitsBE 256 4 bits.toNat).map decByte)

/-- The value of an ASCII decimal digit. -/
def decVal (c : Byte) : Option Nat :=
  if 0x30 ≤ c.toNat ∧ c.toNat ≤ 0x39 then some (c.toNat - 0x30) else none

/-- The value of an ASCII hexadecimal digit, either case. -/
def hexVal (c : Byte) : Option Nat :=
  if 0x30 ≤ c.toNat ∧ c.toNat ≤ 0x39 then some (c.toNat - 0x30)
  else if 0x61 ≤ c.toNat ∧ c.toNat ≤ 0x66 then some (c.toNat - 0x61 + 10)
  else if 0x41 ≤ c.toNat ∧ c.toNat ≤ 0x46 then some (c.toNat - 0x41 + 10)
  else none

/-- The values of the digits of a text, if every byte is a digit. -/
def digitVals (f : Byte → Option Nat) : Text → Option (List Nat)
  | [] => some []
  | c :: cs => match f c, digitVals f cs with
    | some d, some ds => some (d :: ds)
    | _, _ => none

/-- One part of a dotted quad (R116): 1 to 3 digits, at most 255, no leading zero but in "0" itself. -/
def refDecPart (t : Text) : Option Nat :=
  match digitVals decVal t with
  | some [a] => some a
  | some [a, b] => if a = 0 then none else some (a * 10 + b)
  | some [a, b, c] =>
    if a = 0 ∨ a * 100 + b * 10 + c > 255 then none else some (a * 100 + b * 10 + c)
  | _ => none

/-- The reference PARSE4 (R116). -/
def refParse4 (t : Text) : Option (BitVec 32) :=
  if allPrintable t && !hasByte chColon t then
    match (splitAtByte chDot t).map refDecPart with
    | [some a, some b, some c, some d] => some (BitVec.ofNat 32 (valueBE 256 [a, b, c, d]))
    | _ => none
  else none

/-- A lowercase hexadecimal digit of a value under 16. -/
def hexDigit (d : Nat) : Byte := BitVec.ofNat 8 (if d < 10 then 0x30 + d else 0x57 + d)

/-- An uppercase hexadecimal digit of a value under 16. -/
def hexDigitUpper (d : Nat) : Byte := BitVec.ofNat 8 (if d < 10 then 0x30 + d else 0x37 + d)

/-- A 16-bit group in lowercase hexadecimal with no leading zeros (R115 step 2). -/
def hexGroup (n : Nat) : Text :=
  if n < 16 then [hexDigit n]
  else if n < 256 then [hexDigit (n / 16), hexDigit (n % 16)]
  else if n < 4096 then [hexDigit (n / 256), hexDigit (n / 16 % 16), hexDigit (n % 16)]
  else [hexDigit (n / 4096), hexDigit (n / 256 % 16), hexDigit (n / 16 % 16), hexDigit (n % 16)]

/-- How many zero groups stand at the head. -/
def zeroRun : List Nat → Nat
  | [] => 0
  | g :: gs => if g = 0 then zeroRun gs + 1 else 0

/-- The longest run of zero groups, the first on a tie: how many groups stand before it, and its length
(R115 step 3). -/
def longestRun : List Nat → Nat × Nat
  | [] => (0, 0)
  | g :: gs =>
    let r := longestRun gs
    if r.2 ≤ zeroRun (g :: gs) then (0, zeroRun (g :: gs)) else (r.1 + 1, r.2)

/-- Groups in hexadecimal joined by ':'. -/
def hexGroups (gs : List Nat) : Text := joinWith chColon (gs.map hexGroup)

/-- The eight 16-bit groups of an IPv6 bit pattern (R115 step 1). -/
def groups6 (bits : BitVec 128) : List Nat := digitsBE 65536 8 bits.toNat

/-- "::" -/
def doubleColon : Text := [chColon, chColon]

/-- The reference RENDER6 (R115), the canonical form of RFC 5952. -/
def refRender6 (bits : BitVec 128) : Text :=
  if bits.toNat / 2 ^ 32 = 0xFFFF then
    doubleColon ++ (hexGroup 0xFFFF ++ chColon :: render4 (bits.setWidth 32))
  else
    let gs := groups6 bits
    let r := longestRun gs
    if 2 ≤ r.2 then hexGroups (gs.take r.1) ++ (doubleColon ++ hexGroups (gs.drop (r.1 + r.2)))
    else hexGroups gs

/-- A group of 1 to 4 hexadecimal digits, either case, leading zeros allowed (R117). -/
def refHexPart (t : Text) : Option Nat :=
  match digitVals hexVal t with
  | some [] => none
  | some ds => if ds.length ≤ 4 then some (valueBE 16 ds) else none
  | none => none

/-- The groups of a list of parts; where `quad` holds, the last part may be a dotted quad, which counts as two
groups (R117). -/
def refParts6 (quad : Bool) : List Text → Option (List Nat)
  | [] => some []
  | [t] =>
    if quad && hasByte chDot t then (refParse4 t).map fun b => [b.toNat / 65536, b.toNat % 65536]
    else (refHexPart t).map fun g => [g]
  | t :: u :: ts => match refHexPart t, refParts6 quad (u :: ts) with
    | some g, some gs => some (g :: gs)
    | _, _ => none

/-- The groups on one side of "::", of which there may be none. -/
def refSide6 (quad : Bool) (t : Text) : Option (List Nat) :=
  if t = [] then some [] else refParts6 quad (splitAtByte chColon t)

/-- The text before the first "::" and the text after it. -/
def cutDouble : Text → Option (Text × Text)
  | [] => none
  | [_] => none
  | c :: d :: rest =>
    if c = chColon ∧ d = chColon then some ([], rest)
    else (cutDouble (d :: rest)).map fun r => (c :: r.1, r.2)

/-- The bit pattern of eight groups. -/
def ofGroups6 (gs : List Nat) : BitVec 128 := BitVec.ofNat 128 (valueBE 65536 gs)

/-- The reference PARSE6 (R117), the text form of RFC 4291. -/
def refParse6 (t : Text) : Option (BitVec 128) :=
  if allPrintable t && hasByte chColon t then
    match cutDouble t with
    | none => match refSide6 true t with
      | some gs => if gs.length = 8 then some (ofGroups6 gs) else none
      | none => none
    | some (l, r) => match refSide6 false l, refSide6 true r with
      | some a, some b =>
        if a.length + b.length ≤ 7 then
          some (ofGroups6 (a ++ (List.replicate (8 - (a.length + b.length)) 0 ++ b)))
        else none
      | _, _ => none
  else none

/-- The value of a hexadecimal text: an optional prefix "0x", then one or more hexadecimal digits (R203 (b)). -/
def hexTextValue (t : Text) : Option Nat :=
  let digits := match t with
    | a :: b :: rest => if a = chZero ∧ b = chX then rest else t
    | _ => t
  match digitVals hexVal digits with
  | some [] => none
  | some ds => some (valueBE 16 ds)
  | none => none

/-- The reference RENDER_HEX16 (R203): "0x" and exactly four uppercase hexadecimal digits. -/
def refRenderHex16 (raw : BitVec 16) : Text :=
  chZero :: chX :: (digitsBE 16 4 raw.toNat).map hexDigitUpper

end Sys2Proof.Machine
end

