-- ==== Sys2Proof/Machine/TextLaws.lean ====
section
/-! DEFINITION. The laws the reference texts obey (R112, R113, R203), which make the free collaborators of
Machine/Collaborator.lean possible. -/

namespace Sys2Proof.Machine

theorem digitsBE_length (b n v : Nat) : (digitsBE b n v).length = n := by
  induction n with
  | zero => rfl
  | succ n ih => simp [digitsBE, ih]

theorem digitsBE_lt {b : Nat} (hb : 0 < b) (n v : Nat) : ∀ d ∈ digitsBE b n v, d < b := by
  induction n with
  | zero => simp [digitsBE]
  | succ n ih => simpa [digitsBE] using ⟨Nat.mod_lt _ hb, ih⟩

theorem valueBE_digitsBE (b n v : Nat) : valueBE b (digitsBE b n v) = v % b ^ n := by
  induction n with
  | zero => simp [digitsBE, valueBE, Nat.mod_one]
  | succ n ih =>
    simp only [digitsBE, valueBE, digitsBE_length, ih]
    rw [Nat.pow_succ, Nat.mod_mul, Nat.mul_comm, Nat.add_comm]

/-- The parts of a join are the texts joined, where none of them holds the separator. -/
theorem splitAtByte_clean {sep : Byte} {t : Text} (h : sep ∉ t) : splitAtByte sep t = [t] := by
  induction t with
  | nil => rfl
  | cons c cs ih =>
    simp only [List.mem_cons, not_or] at h
    simp [splitAtByte, Ne.symm h.1, ih h.2]

theorem splitAtByte_append {sep : Byte} {t u : Text} (h : sep ∉ t) :
    splitAtByte sep (t ++ sep :: u) = t :: splitAtByte sep u := by
  induction t with
  | nil => simp [splitAtByte]
  | cons c cs ih =>
    simp only [List.mem_cons, not_or] at h
    simp [splitAtByte, Ne.symm h.1, ih h.2]

theorem splitAtByte_joinWith {sep : Byte} : ∀ {ts : List Text}, ts ≠ [] → (∀ t ∈ ts, sep ∉ t) →
    splitAtByte sep (joinWith sep ts) = ts
  | [], h, _ => absurd rfl h
  | [t], _, h => splitAtByte_clean (h t (by simp))
  | t :: u :: ts, _, h => by
    rw [joinWith, splitAtByte_append (h t (by simp)),
      splitAtByte_joinWith (by simp) fun x hx => h x (List.mem_cons_of_mem _ hx)]

theorem mem_joinWith {sep c : Byte} : ∀ {ts : List Text}, c ∈ joinWith sep ts → c = sep ∨ ∃ t ∈ ts, c ∈ t
  | [], h => by simp [joinWith] at h
  | [t], h => .inr ⟨t, by simp, h⟩
  | t :: u :: ts, h => by
    simp only [joinWith, List.mem_append, List.mem_cons] at h
    rcases h with h | h | h
    · exact .inr ⟨t, by simp, h⟩
    · exact .inl h
    · rcases mem_joinWith h with h | ⟨x, hx, hc⟩
      · exact .inl h
      · exact .inr ⟨x, List.mem_cons_of_mem _ hx, hc⟩

theorem joinWith_length_le {sep : Byte} {k : Nat} : ∀ {ts : List Text}, (∀ t ∈ ts, t.length ≤ k) →
    (joinWith sep ts).length ≤ ts.length * (k + 1)
  | [], _ => by simp [joinWith]
  | [t], h => by have := h t (by simp); simp [joinWith]; omega
  | t :: u :: ts, h => by
    have h1 := h t (by simp)
    have h2 := joinWith_length_le (sep := sep) (k := k) (ts := u :: ts)
      fun x hx => h x (List.mem_cons_of_mem _ hx)
    simp only [joinWith, List.length_append, List.length_cons] at *
    rw [Nat.add_mul (_ + 1)]
    omega

theorem decDigit_spec {d : Nat} (h : d < 10) :
    decVal (decDigit d) = some d ∧ decDigit d ≠ chDot ∧ decDigit d ≠ chColon ∧ printable (decDigit d) = true := by
  interval_cases d <;> decide

theorem hexDigit_spec {d : Nat} (h : d < 16) :
    hexVal (hexDigit d) = some d ∧ hexDigit d ≠ chDot ∧ hexDigit d ≠ chColon ∧ printable (hexDigit d) = true := by
  interval_cases d <;> decide

theorem hexDigitUpper_spec {d : Nat} (h : d < 16) : hexVal (hexDigitUpper d) = some d := by
  interval_cases d <;> decide

/-- Every byte of a decimal byte is a decimal digit. -/
theorem mem_decByte {n : Nat} (h : n < 256) {c : Byte} (hc : c ∈ decByte n) : ∃ d < 10, c = decDigit d := by
  unfold decByte at hc
  split at hc
  · exact ⟨n, by omega, by simpa using hc⟩
  · split at hc <;> simp only [List.mem_cons, List.not_mem_nil, or_false] at hc
    · rcases hc with hc | hc <;> exact ⟨_, by omega, hc⟩
    · rcases hc with hc | hc | hc <;> exact ⟨_, by omega, hc⟩

theorem refDecPart_decByte {n : Nat} (h : n < 256) : refDecPart (decByte n) = some n := by
  have dv := fun {d} (hd : d < 10) => (decDigit_spec hd).1
  unfold decByte
  split
  · simp [refDecPart, digitVals, dv (d := n) (by omega)]
  · split
    · simp [refDecPart, digitVals, dv (d := n / 10) (by omega), dv (d := n % 10) (by omega)]
      omega
    · simp [refDecPart, digitVals, dv (d := n / 100) (by omega), dv (d := n / 10 % 10) (by omega),
        dv (d := n % 10) (by omega)]
      omega

/-- Every byte of a hexadecimal group is a lowercase hexadecimal digit. -/
theorem mem_hexGroup {n : Nat} (h : n < 65536) {c : Byte} (hc : c ∈ hexGroup n) : ∃ d < 16, c = hexDigit d := by
  unfold hexGroup at hc
  repeat' split at hc
  all_goals simp only [List.mem_cons, List.not_mem_nil, or_false] at hc
  · exact ⟨n, by omega, hc⟩
  · rcases hc with hc | hc <;> exact ⟨_, by omega, hc⟩
  · rcases hc with hc | hc | hc <;> exact ⟨_, by omega, hc⟩
  · rcases hc with hc | hc | hc | hc <;> exact ⟨_, by omega, hc⟩

theorem refHexPart_hexGroup {n : Nat} (h : n < 65536) : refHexPart (hexGroup n) = some n := by
  have hv := fun {d} (hd : d < 16) => (hexDigit_spec hd).1
  unfold hexGroup
  repeat' split
  · simp [refHexPart, digitVals, valueBE, hv (d := n) (by omega)]
  · simp [refHexPart, digitVals, valueBE, hv (d := n / 16) (by omega), hv (d := n % 16) (by omega)]
    omega
  · simp [refHexPart, digitVals, valueBE, hv (d := n / 256) (by omega), hv (d := n / 16 % 16) (by omega),
      hv (d := n % 16) (by omega)]
    omega
  · simp [refHexPart, digitVals, valueBE, hv (d := n / 4096) (by omega), hv (d := n / 256 % 16) (by omega),
      hv (d := n / 16 % 16) (by omega), hv (d := n % 16) (by omega)]
    omega

theorem decByte_length {n : Nat} : 1 ≤ (decByte n).length ∧ (decByte n).length ≤ 3 := by
  unfold decByte
  repeat' split
  all_goals simp

theorem hexGroup_length {n : Nat} : 1 ≤ (hexGroup n).length ∧ (hexGroup n).length ≤ 4 := by
  unfold hexGroup
  repeat' split
  all_goals simp

/-- The four parts of a dotted quad. -/
theorem render4_parts (b : BitVec 32) : ∀ t ∈ (digitsBE 256 4 b.toNat).map decByte, ∃ n < 256, t = decByte n := by
  intro t ht
  obtain ⟨n, hn, rfl⟩ := List.mem_map.1 ht
  exact ⟨n, digitsBE_lt (by decide) 4 _ n hn, rfl⟩

/-- Every byte of a dotted quad is a decimal digit or '.'. -/
theorem mem_render4 {b : BitVec 32} {c : Byte} (hc : c ∈ render4 b) : c = chDot ∨ ∃ d < 10, c = decDigit d := by
  rcases mem_joinWith hc with h | ⟨t, ht, hct⟩
  · exact .inl h
  · obtain ⟨n, hn, rfl⟩ := render4_parts b t ht
    exact .inr (mem_decByte hn hct)

theorem splitAtByte_render4 (b : BitVec 32) :
    splitAtByte chDot (render4 b) = (digitsBE 256 4 b.toNat).map decByte := by
  refine splitAtByte_joinWith (by simp [digitsBE]) fun t ht hd => ?_
  obtain ⟨n, hn, rfl⟩ := render4_parts b t ht
  obtain ⟨d, hd10, hd⟩ := mem_decByte hn hd
  exact (decDigit_spec hd10).2.1 hd.symm

theorem render4_printable (b : BitVec 32) : allPrintable (render4 b) = true := by
  refine List.all_eq_true.2 fun c hc => ?_
  rcases mem_render4 hc with rfl | ⟨d, hd, rfl⟩
  · decide
  · exact (decDigit_spec hd).2.2.2

theorem render4_noColon (b : BitVec 32) : chColon ∉ render4 b := by
  intro hc
  rcases mem_render4 hc with h | ⟨d, hd, h⟩
  · exact absurd h (by decide)
  · exact (decDigit_spec hd).2.2.1 h.symm

theorem hasByte_eq_false {c : Byte} {t : Text} : hasByte c t = false ↔ c ∉ t := by
  rw [hasByte, List.any_eq_false]
  exact ⟨fun h hc => h c hc (by simp), fun h x hx he => h (by simpa using (beq_iff_eq.1 he) ▸ hx)⟩

theorem hasByte_eq_true {c : Byte} {t : Text} : hasByte c t = true ↔ c ∈ t := by
  simp [hasByte, List.any_eq_true]

theorem render4_hasDot (b : BitVec 32) : chDot ∈ render4 b := by
  simp [render4, digitsBE, joinWith]

/-- RENDER4's output is non-empty and at most 15 bytes, so it fits every MAX_TEXT_LEN (R112 (b)). -/
theorem render4_length (b : BitVec 32) : 1 ≤ (render4 b).length ∧ (render4 b).length ≤ 15 := by
  have h := fun n => decByte_length (n := n)
  simp only [render4, digitsBE, List.map_cons, List.map_nil, joinWith, List.length_append, List.length_cons]
  have h0 := h (b.toNat / 256 ^ 3 % 256)
  have h1 := h (b.toNat / 256 ^ 2 % 256)
  have h2 := h (b.toNat / 256 ^ 1 % 256)
  have h3 := h (b.toNat / 256 ^ 0 % 256)
  omega

theorem refParse4_unprintable (t : Text) (h : allPrintable t = false) : refParse4 t = none := by
  simp [refParse4, h]

theorem refParse4_colon (t : Text) (h : hasByte chColon t = true) : refParse4 t = none := by
  simp [refParse4, h]

/-- The reference PARSE4 reads back what RENDER4 writes (R113). -/
theorem refParse4_render4 (b : BitVec 32) : refParse4 (render4 b) = some b := by
  have hd := digitsBE_lt (b := 256) (by decide) 4 b.toNat
  have hv := valueBE_digitsBE 256 4 b.toNat
  rw [refParse4, if_pos (by simp [render4_printable, hasByte_eq_false.2 (render4_noColon b)]), splitAtByte_render4]
  simp only [digitsBE, List.mem_cons, List.not_mem_nil, or_false, forall_eq_or_imp, forall_eq] at hd hv
  simp only [digitsBE, List.map_cons, List.map_nil, refDecPart_decByte, hd, hv]
  rw [show (256 : Nat) ^ 4 = 2 ^ 32 by decide, Nat.mod_eq_of_lt b.isLt, BitVec.ofNat_toNat, BitVec.setWidth_eq]

theorem cutDouble_cons {c : Byte} {t : Text} (h : c ≠ chColon) :
    cutDouble (c :: t) = (cutDouble t).map fun r => (c :: r.1, r.2) := by
  cases t <;> simp [cutDouble, h]

theorem cutDouble_append {p t : Text} (h : chColon ∉ p) :
    cutDouble (p ++ t) = (cutDouble t).map fun r => (p ++ r.1, r.2) := by
  induction p with
  | nil => simp
  | cons c cs ih =>
    simp only [List.mem_cons, not_or] at h
    rw [List.cons_append, cutDouble_cons (Ne.symm h.1), ih h.2]
    cases cutDouble t <;> rfl

theorem cutDouble_colon {d : Byte} {t : Text} (h : d ≠ chColon) :
    cutDouble (chColon :: d :: t) = (cutDouble (d :: t)).map fun r => (chColon :: r.1, r.2) := by
  simp [cutDouble, h]

/-- Group texts: none is empty and none holds a ':'. -/
def CleanParts (ts : List Text) : Prop := ∀ t ∈ ts, t ≠ [] ∧ chColon ∉ t

theorem cleanParts_hexGroups {gs : List Nat} (h : ∀ g ∈ gs, g < 65536) : CleanParts (gs.map hexGroup) := by
  intro t ht
  obtain ⟨g, hg, rfl⟩ := List.mem_map.1 ht
  refine ⟨fun he => ?_, fun hc => ?_⟩
  · have := (hexGroup_length (n := g)).1
    simp [he] at this
  · obtain ⟨d, hd, hc⟩ := mem_hexGroup (h g hg) hc
    exact (hexDigit_spec hd).2.2.1 hc.symm

theorem joinWith_head {t : Text} {ts : List Text} (h : CleanParts (t :: ts)) :
    ∃ d r, joinWith chColon (t :: ts) = d :: r ∧ d ≠ chColon := by
  obtain ⟨h0, hc⟩ := h t (by simp)
  obtain ⟨d, t', rfl⟩ := List.exists_cons_of_ne_nil h0
  refine ⟨d, ?_⟩
  simp only [List.mem_cons, not_or] at hc
  cases ts with
  | nil => exact ⟨t', rfl, Ne.symm hc.1⟩
  | cons u us => exact ⟨_, by rw [joinWith, List.cons_append], Ne.symm hc.1⟩

theorem cutDouble_joinWith : ∀ {ts : List Text}, CleanParts ts → cutDouble (joinWith chColon ts) = none
  | [], _ => rfl
  | [t], h => by simpa [joinWith, cutDouble] using cutDouble_append (t := []) (h t (by simp)).2
  | t :: u :: ts, h => by
    have hu : CleanParts (u :: ts) := fun x hx => h x (List.mem_cons_of_mem _ hx)
    obtain ⟨d, r, hj, hd⟩ := joinWith_head hu
    have ih := cutDouble_joinWith hu
    rw [joinWith, cutDouble_append (h t (by simp)).2, hj, cutDouble_colon hd, ← hj, ih]
    rfl

theorem cutDouble_joinWith_double : ∀ {ts : List Text} (r : Text), CleanParts ts →
    cutDouble (joinWith chColon ts ++ (doubleColon ++ r)) = some (joinWith chColon ts, r)
  | [], r, _ => by simp [joinWith, cutDouble, doubleColon]
  | [t], r, h => by
    rw [joinWith, cutDouble_append (h t (by simp)).2]
    simp [cutDouble, doubleColon]
  | t :: u :: ts, r, h => by
    have hu : CleanParts (u :: ts) := fun x hx => h x (List.mem_cons_of_mem _ hx)
    obtain ⟨d, w, hj, hd⟩ := joinWith_head hu
    have ih := cutDouble_joinWith_double r hu
    rw [hj, List.cons_append] at ih
    rw [joinWith, hj, List.append_assoc, List.cons_append, List.cons_append,
      cutDouble_append (h t (by simp)).2, cutDouble_colon hd, ih]
    rfl

theorem hexGroup_noDot {g : Nat} (h : g < 65536) : hasByte chDot (hexGroup g) = false := by
  refine hasByte_eq_false.2 fun hc => ?_
  obtain ⟨d, hd, hc⟩ := mem_hexGroup h hc
  exact (hexDigit_spec hd).2.1 hc.symm

theorem refParts6_hexGroups {quad : Bool} : ∀ {gs : List Nat}, (∀ g ∈ gs, g < 65536) →
    refParts6 quad (gs.map hexGroup) = some gs
  | [], _ => rfl
  | [g], h => by
    have hg := h g (by simp)
    simp [refParts6, hexGroup_noDot hg, refHexPart_hexGroup hg]
  | g :: k :: gs, h => by
    have ih := refParts6_hexGroups (quad := quad) (gs := k :: gs) fun x hx => h x (List.mem_cons_of_mem _ hx)
    rw [List.map_cons] at ih
    rw [List.map_cons, List.map_cons, refParts6, refHexPart_hexGroup (h g (by simp)), ih]

theorem refSide6_hexGroups {quad : Bool} {gs : List Nat} (h : ∀ g ∈ gs, g < 65536) :
    refSide6 quad (hexGroups gs) = some gs := by
  have hc := cleanParts_hexGroups h
  cases gs with
  | nil => rfl
  | cons g gs =>
    obtain ⟨d, r, hj, _⟩ := joinWith_head hc
    have hne : joinWith chColon ((g :: gs).map hexGroup) ≠ [] := by
      rw [List.map_cons, hj]; exact List.cons_ne_nil _ _
    rw [refSide6, hexGroups, if_neg hne, splitAtByte_joinWith (by simp) fun t ht => (hc t ht).2,
      refParts6_hexGroups h]

theorem zeroRun_replicate (gs : List Nat) : gs = List.replicate (zeroRun gs) 0 ++ gs.drop (zeroRun gs) := by
  induction gs with
  | nil => rfl
  | cons g gs ih =>
    rw [zeroRun]
    split
    · subst g
      simpa [List.replicate_succ] using ih
    · rfl

/-- What `longestRun` answers is a run of zero groups. -/
theorem longestRun_spec (gs : List Nat) :
    gs = gs.take (longestRun gs).1 ++ (List.replicate (longestRun gs).2 0 ++
      gs.drop ((longestRun gs).1 + (longestRun gs).2)) := by
  induction gs with
  | nil => rfl
  | cons g gs ih =>
    rw [longestRun]
    split
    · simpa using zeroRun_replicate (g :: gs)
    · simp only [List.take_succ_cons, List.cons_append, Nat.add_right_comm _ 1, List.drop_succ_cons]
      exact congrArg (g :: ·) ih

theorem groups6_lt (b : BitVec 128) : ∀ g ∈ groups6 b, g < 65536 := digitsBE_lt (by decide) 8 _

theorem groups6_length (b : BitVec 128) : (groups6 b).length = 8 := digitsBE_length _ _ _

theorem ofGroups6_groups6 (b : BitVec 128) : ofGroups6 (groups6 b) = b := by
  rw [ofGroups6, groups6, valueBE_digitsBE, show (65536 : Nat) ^ 8 = 2 ^ 128 by decide, Nat.mod_eq_of_lt b.isLt,
    BitVec.ofNat_toNat, BitVec.setWidth_eq]

theorem mem_hexGroups {gs : List Nat} (h : ∀ g ∈ gs, g < 65536) {c : Byte} (hc : c ∈ hexGroups gs) :
    c = chColon ∨ ∃ d < 16, c = hexDigit d := by
  rcases mem_joinWith hc with hc | ⟨t, ht, hct⟩
  · exact .inl hc
  · obtain ⟨g, hg, rfl⟩ := List.mem_map.1 ht
    exact .inr (mem_hexGroup (h g hg) hct)

theorem hexGroups_printable {gs : List Nat} (h : ∀ g ∈ gs, g < 65536) : allPrintable (hexGroups gs) = true := by
  refine List.all_eq_true.2 fun c hc => ?_
  rcases mem_hexGroups h hc with rfl | ⟨d, hd, rfl⟩
  · decide
  · exact (hexDigit_spec hd).2.2.2

theorem allPrintable_append {t u : Text} : allPrintable (t ++ u) = (allPrintable t && allPrintable u) :=
  List.all_append

theorem hexGroups_length_le (gs : List Nat) : (hexGroups gs).length ≤ gs.length * 5 := by
  have h := joinWith_length_le (sep := chColon) (k := 4) (ts := gs.map hexGroup)
    fun t ht => by obtain ⟨g, _, rfl⟩ := List.mem_map.1 ht; exact hexGroup_length.2
  rwa [List.length_map] at h

/-- The three forms of the reference RENDER6: IPv4-mapped, with a run of zero groups replaced, and with none. -/
theorem refRender6_cases (b : BitVec 128) :
    (b.toNat / 2 ^ 32 = 0xFFFF ∧
      refRender6 b = doubleColon ++ (hexGroup 0xFFFF ++ chColon :: render4 (b.setWidth 32))) ∨
    (2 ≤ (longestRun (groups6 b)).2 ∧
      refRender6 b = hexGroups ((groups6 b).take (longestRun (groups6 b)).1) ++
        (doubleColon ++ hexGroups ((groups6 b).drop ((longestRun (groups6 b)).1 + (longestRun (groups6 b)).2)))) ∨
    refRender6 b = hexGroups (groups6 b) := by
  by_cases hm : b.toNat / 2 ^ 32 = 0xFFFF
  · exact .inl ⟨hm, if_pos hm⟩
  · by_cases h2 : 2 ≤ (longestRun (groups6 b)).2
    · exact .inr (.inl ⟨h2, (if_neg hm).trans (if_pos h2)⟩)
    · exact .inr (.inr ((if_neg hm).trans (if_neg h2)))

theorem refRender6_printable (b : BitVec 128) : allPrintable (refRender6 b) = true := by
  have hg := groups6_lt b
  have h1 := hexGroups_printable fun g hm => hg g (List.mem_of_mem_take (i := (longestRun (groups6 b)).1) hm)
  have h2 := hexGroups_printable fun g hm =>
    hg g (List.mem_of_mem_drop (i := (longestRun (groups6 b)).1 + (longestRun (groups6 b)).2) hm)
  rcases refRender6_cases b with ⟨_, h⟩ | ⟨_, h⟩ | h <;> rw [h]
  · rw [allPrintable_append, allPrintable_append, ← List.singleton_append, allPrintable_append, render4_printable]
    decide
  · rw [allPrintable_append, allPrintable_append, h1, h2]
    decide
  · exact hexGroups_printable hg

theorem colon_mem_hexGroups {g k : Nat} {gs : List Nat} : chColon ∈ hexGroups (g :: k :: gs) := by
  simp [hexGroups, joinWith]

theorem refRender6_hasColon (b : BitVec 128) : hasByte chColon (refRender6 b) = true := by
  refine hasByte_eq_true.2 ?_
  rcases refRender6_cases b with ⟨_, h⟩ | ⟨_, h⟩ | h <;> rw [h]
  · simp [doubleColon]
  · simp [doubleColon]
  · exact colon_mem_hexGroups

theorem refRender6_nonempty (b : BitVec 128) : refRender6 b ≠ [] := by
  intro h
  have := hasByte_eq_true.1 (refRender6_hasColon b)
  simp [h] at this

/-- The reference RENDER6 writes at most 45 bytes, so it fits every MAX_TEXT_LEN. -/
theorem refRender6_fits (b : BitVec 128) : (refRender6 b).length ≤ Config.maxTextLen := by
  refine Nat.le_trans (m := 45) ?_ (Nat.le_add_right _ _)
  have h4 := (render4_length (b.setWidth 32)).2
  have hF := (hexGroup_length (n := 0xFFFF)).2
  rcases refRender6_cases b with ⟨_, h⟩ | ⟨_, h⟩ | h <;> rw [h]
  · simp only [List.length_append, List.length_cons, doubleColon, List.length_nil]
    omega
  · have h1 := hexGroups_length_le ((groups6 b).take (longestRun (groups6 b)).1)
    have h3 := hexGroups_length_le ((groups6 b).drop ((longestRun (groups6 b)).1 + (longestRun (groups6 b)).2))
    simp only [List.length_append, List.length_cons, doubleColon, List.length_nil, List.length_take,
      List.length_drop, groups6_length] at *
    omega
  · have h1 := hexGroups_length_le (groups6 b)
    rw [groups6_length] at h1
    omega

theorem refParse6_unprintable (t : Text) (h : allPrintable t = false) : refParse6 t = none := by
  simp [refParse6, h]

theorem refParse6_noColon (t : Text) (h : hasByte chColon t = false) : refParse6 t = none := by
  simp [refParse6, h]

/-- The side after "::" of an IPv4-mapped text. -/
theorem refSide6_mapped (b : BitVec 32) :
    refSide6 true (hexGroup 0xFFFF ++ chColon :: render4 b) = some [0xFFFF, b.toNat / 65536, b.toNat % 65536] := by
  have hc : chColon ∉ hexGroup 0xFFFF := ((cleanParts_hexGroups (gs := [0xFFFF]) (by simp)) _ (by simp)).2
  rw [refSide6, if_neg (by simp), splitAtByte_append hc, splitAtByte_clean (render4_noColon b), refParts6,
    refHexPart_hexGroup (by decide), refParts6]
  simp [hasByte_eq_true.2 (render4_hasDot b), refParse4_render4]

/-- The reference PARSE6 reads back what the reference RENDER6 writes (R113). -/
theorem refParse6_refRender6 (b : BitVec 128) : refParse6 (refRender6 b) = some b := by
  have hg := groups6_lt b
  have hl := groups6_length b
  rw [refParse6, if_pos (by simp [refRender6_printable, refRender6_hasColon])]
  rcases refRender6_cases b with ⟨hm, h⟩ | ⟨_, h⟩ | h <;> rw [h]
  · rw [show doubleColon ++ (hexGroup 0xFFFF ++ chColon :: render4 (b.setWidth 32)) =
      joinWith chColon [] ++ (doubleColon ++ (hexGroup 0xFFFF ++ chColon :: render4 (b.setWidth 32))) from rfl,
      cutDouble_joinWith_double _ (fun t ht => by simp at ht)]
    simp only [joinWith, refSide6_mapped]
    simp only [refSide6, if_true, List.length_nil, List.length_cons]
    rw [if_pos (by decide)]
    have hb := b.isLt
    refine congrArg some (BitVec.eq_of_toNat_eq ?_)
    simp [ofGroups6, valueBE, List.replicate, BitVec.toNat_ofNat, BitVec.toNat_setWidth]
    omega
  · have hrun := longestRun_spec (groups6 b)
    have hlen := congrArg List.length hrun
    have h1 : ∀ g ∈ (groups6 b).take (longestRun (groups6 b)).1, g < 65536 := fun g hm =>
      hg g (List.mem_of_mem_take hm)
    have h2 : ∀ g ∈ (groups6 b).drop ((longestRun (groups6 b)).1 + (longestRun (groups6 b)).2), g < 65536 :=
      fun g hm => hg g (List.mem_of_mem_drop hm)
    rw [hexGroups, cutDouble_joinWith_double _ (cleanParts_hexGroups h1), ← hexGroups]
    simp only [refSide6_hexGroups h1, refSide6_hexGroups h2]
    simp only [List.length_append, List.length_replicate, hl] at hlen
    rw [if_pos (by omega), show 8 - _ = (longestRun (groups6 b)).2 by omega, ← hrun, ofGroups6_groups6]
  · rw [hexGroups, cutDouble_joinWith (cleanParts_hexGroups hg), ← hexGroups]
    simp only [refSide6_hexGroups hg, hl, if_true, ofGroups6_groups6]

theorem digitVals_map {f : Byte → Option Nat} {g : Nat → Byte} : ∀ {ds : List Nat}, (∀ d ∈ ds, f (g d) = some d) →
    digitVals f (ds.map g) = some ds
  | [], _ => rfl
  | d :: ds, h => by
    rw [List.map_cons, digitVals, h d (by simp), digitVals_map fun x hx => h x (List.mem_cons_of_mem _ hx)]

/-- The reference RENDER_HEX16 denotes its argument (R203 (b)). -/
theorem hexTextValue_refRenderHex16 (raw : BitVec 16) : hexTextValue (refRenderHex16 raw) = some raw.toNat := by
  have hd := digitsBE_lt (b := 16) (by decide) 4 raw.toNat
  have hv := valueBE_digitsBE 16 4 raw.toNat
  have := digitVals_map (f := hexVal) (g := hexDigitUpper) fun d hm => hexDigitUpper_spec (hd d hm)
  rw [refRenderHex16, hexTextValue]
  simp only [and_self, if_true, this]
  rw [digitsBE] at hv ⊢
  simp only [hv, show (16 : Nat) ^ 4 = 2 ^ 16 by decide, Nat.mod_eq_of_lt raw.isLt]

end Sys2Proof.Machine
end

