-- ==== Sys2Proof/Machine/Collaborator.lean ====
section
/-! DEFINITION. The platform's text collaborators (R112, R113, R203): OPEN parameters, so each is a free value that
satisfies its laws and of which nothing else is known. A free constant of Config says which lawful collaborator
the platform has; where it names none, the reference one stands in, so that the laws hold whatever it is. -/

namespace Sys2Proof.Machine

/-- PARSE4 with its laws (R112 (a), (c), (d), R113). -/
structure Collab4 where
  parse : Text → Option (BitVec 32)
  rejectsUnprintable : ∀ t, allPrintable t = false → parse t = none
  rejectsColon : ∀ t, hasByte chColon t = true → parse t = none
  parseRender : ∀ b, parse (render4 b) = some b

/-- PARSE6 and RENDER6 with their laws (R112 (a) to (d), R113). -/
structure Collab6 where
  parse : Text → Option (BitVec 128)
  render : BitVec 128 → Text
  rejectsUnprintable : ∀ t, allPrintable t = false → parse t = none
  rejectsNoColon : ∀ t, hasByte chColon t = false → parse t = none
  renderNonempty : ∀ b, render b ≠ []
  renderFits : ∀ b, (render b).length ≤ Config.maxTextLen
  renderPrintable : ∀ b, allPrintable (render b) = true
  parseRender : ∀ b, parse (render b) = some b

/-- RENDER_HEX16 with its laws (R203 (a), (b); (c) follows). -/
structure HexRenderer where
  render : BitVec 16 → Text
  value : ∀ raw, hexTextValue (render raw) = some raw.toNat

/-- The reference PARSE4 is lawful (R116). -/
def refCollab4 : Collab4 where
  parse := refParse4
  rejectsUnprintable := refParse4_unprintable
  rejectsColon := refParse4_colon
  parseRender := refParse4_render4

/-- The reference PARSE6 and RENDER6 are lawful (R115, R117). -/
def refCollab6 : Collab6 where
  parse := refParse6
  render := refRender6
  rejectsUnprintable := refParse6_unprintable
  rejectsNoColon := refParse6_noColon
  renderNonempty := refRender6_nonempty
  renderFits := refRender6_fits
  renderPrintable := refRender6_printable
  parseRender := refParse6_refRender6

/-- The reference RENDER_HEX16 is lawful (R203). -/
def refHexRenderer : HexRenderer where
  render := refRenderHex16
  value := hexTextValue_refRenderHex16

end Sys2Proof.Machine

namespace Sys2Proof.Config

/-- The platform's PARSE4: a free value (R7, R112, I10). Log entry 9, safe. -/
opaque platform4 : Option Machine.Collab4

/-- The platform's PARSE6 and RENDER6: a free value (R7, R112, I10, I11). Log entry 10, safe. -/
opaque platform6 : Option Machine.Collab6

/-- RENDER_HEX16: a free value (R7, R203, I12). Log entry 11, safe. -/
opaque platformHex : Option Machine.HexRenderer

end Sys2Proof.Config

namespace Sys2Proof.Machine

/-- PARSE4 of this instance (R7). -/
def collab4 : Collab4 := Config.platform4.getD refCollab4

/-- PARSE6 and RENDER6 of this instance (R7). -/
def collab6 : Collab6 := Config.platform6.getD refCollab6

/-- RENDER_HEX16 of this instance (R7). -/
def hexRenderer : HexRenderer := Config.platformHex.getD refHexRenderer

end Sys2Proof.Machine
end

