-- ==== Sys2Proof/Machine/Values.lean ====
section
/-! DEFINITION. The value types of 10_state.md rules R20 to R28: what the value registers hold. -/

namespace Sys2Proof.Machine

/-- `Command`: a closed enumeration of two values (R21, R205). -/
inductive Command where
  | fullTod
  | nak
  deriving DecidableEq, Repr

/-- `UidTotal`: a 16-bit value of a type of its own (R22, R200, R201). -/
structure UidTotal where
  raw : BitVec 16
  deriving DecidableEq, Repr

/-- `TodPacket` (R24), in the order of its fields. It holds no reserved bytes (R25), and every value of every field is
admitted (R26). That `tod` has at most TOD_MAX entries is `TodPacket.fits`. -/
structure TodPacket where
  protocolVersion : ProtocolVersion
  rdmVersion : Byte
  port : Byte
  bindingIndex : Byte
  net : Byte
  command : Command
  address : Byte
  uidTotal : UidTotal
  blockCount : Byte
  uidCount : Byte
  tod : List Uid
  deriving DecidableEq, Repr

/-- `PacketValue`: a tagged union with one variant (R27). -/
inductive PacketValue where
  | todData (pkt : TodPacket)
  deriving DecidableEq, Repr

/-- What `req_pkt` and `rsp_pkt` hold: a PacketValue or a TodPacket (R33, R34). -/
inductive PktReg where
  | packet (v : PacketValue)
  | tod (pkt : TodPacket)
  deriving DecidableEq, Repr

/-- `NetAddr`: the variant tag and its bit pattern (R28). -/
inductive NetAddr where
  | v4 (bits : BitVec 32)
  | v6 (bits : BitVec 128)
  deriving DecidableEq, Repr

/-- The field names `err_field` can hold (R34, R224). -/
inductive FieldName where
  | command
  deriving DecidableEq, Repr

/-- The five error kinds with what they record (R221 to R227). -/
inductive BlockError where
  | unknownOpCode (raw : OpCode)
  | truncatedBuffer (expected actual : Nat)
  | invalidEnumValue (field : FieldName) (raw : Byte)
  | invalidAddressLength (expected actual : Nat)
  | invalidAddressText (text : Text)
  deriving DecidableEq, Repr

/-- What an operation that ends in `done` puts into the response registers (R34). -/
inductive Output where
  /-- FRAME_DECODE: `rsp_opcode` and `rsp_pkt` -/
  | frame (opcode : OpCode) (v : PacketValue)
  /-- TOD_DECODE: `rsp_pkt` -/
  | tod (pkt : TodPacket)
  /-- FRAME_ENCODE, TOD_ENCODE, ADDR_TO_BYTES: `rsp_buf` -/
  | bytes (b : List Byte)
  /-- the four ADDR_FROM operations: `rsp_addr` -/
  | addr (a : NetAddr)
  /-- ADDR_TO_TEXT, UIDTOTAL_TO_TEXT: `rsp_text` -/
  | text (t : Text)
  /-- ADDR_EQ: `rsp_bool` -/
  | bool (b : Bool)
  deriving DecidableEq, Repr

end Sys2Proof.Machine
end

