-- ==== Sys2Proof/Machine/State.lean ====
section
/-! DEFINITION. The state: the request registers (R33), the response registers (R34), the decode cursor (R35), and
the requester's side of the interface; how a step stops; and the machine right after reset (R38, R250). -/

namespace Sys2Proof.Machine

/-- The request registers (R33), written by the requester and read by the block. -/
structure Request where
  op : BitVec 4
  buf : List Byte
  pkt : PktReg
  addrA : NetAddr
  addrB : NetAddr
  text : Text
  u16 : UidTotal
  deriving DecidableEq, Repr

/-- The response registers (R34, R37). `none` is the spec's own 'holds no value'. -/
structure Response where
  status : Option (BitVec 3) := none
  buf : Option (List Byte) := none
  opcode : Option OpCode := none
  pkt : Option PktReg := none
  addr : Option NetAddr := none
  text : Option Text := none
  bool : Option Bool := none
  errExpected : Option Nat := none
  errActual : Option Nat := none
  errRaw : Option (BitVec 16) := none
  errField : Option FieldName := none
  errText : Option Text := none
  deriving DecidableEq, Repr

/-- The names of the response registers (R34). -/
inductive RspReg where
  | status | buf | opcode | pkt | addr | text | bool
  | errExpected | errActual | errRaw | errField | errText
  deriving DecidableEq, Repr

/-- What a read of a response register gives the requester. -/
inductive RspValue where
  | status (code : BitVec 3)
  | bytes (b : List Byte)
  | word (w : BitVec 16)
  | pkt (p : PktReg)
  | addr (a : NetAddr)
  | text (t : Text)
  | bool (b : Bool)
  | nat (n : Nat)
  | field (f : FieldName)
  deriving DecidableEq, Repr

/-- A write of one request register by the requester (R33). -/
inductive ReqWrite where
  | op (v : BitVec 4)
  | buf (v : List Byte)
  | pkt (v : PktReg)
  | addrA (v : NetAddr)
  | addrB (v : NetAddr)
  | text (v : Text)
  | u16 (v : UidTotal)
  deriving DecidableEq, Repr

/-- What the requester does at the interface: it writes a request register (R33), issues the request the registers hold
(R254, R257), or reads a response register (R256). DESIGN CHOICE, log entry 1. -/
inductive RequesterAct where
  | write (w : ReqWrite)
  | issue
  | read (r : RspReg)
  deriving DecidableEq, Repr

/-- The state of one instance and its requester. -/
structure State where
  /-- the request registers -/
  req : Request
  /-- the response registers -/
  rsp : Response
  /-- the decode cursor, which exists only while an operation runs (R35); log entry 5 -/
  cur : Option Nat
  /-- the model's own: what the requester does next, in order; log entry 1 -/
  requester : List RequesterAct
  /-- the model's own: what the requester's last read gave it; log entry 22 -/
  lastRead : Option RspValue
  deriving DecidableEq, Repr

/-- How a step stops with a fault. -/
inductive Fault where
  /-- Raised by a read of a response register that holds no value (R34, R256, R250). Safe: the spec demands it. -/
  | noValue (r : RspReg)
  /-- Raised by a read of a status code 6 or 7, which the block never produces (R221, 93_implementation_defined.md
  I17). Safe: the spec demands it. -/
  | reservedStatus (code : BitVec 3)
  deriving DecidableEq, Repr

/-- How a request is refused (R240). The refused state is not final there, and an outcome here carries no state;
log entry 20. -/
inductive Refusal where
  /-- An arm of `exec` with no meaning yet. Safe. -/
  | notModelled (mnemonic : String)
  /-- Raised by the reserved op-selects 0x0, 0xD, 0xE and 0xF (R83, R240). Safe. -/
  | reservedOpSelect (op : BitVec 4)
  /-- Raised by an operation that reads `req_buf` when it is longer than MAX_BUF_LEN (R240). Safe. -/
  | bufferTooLong (len : Nat)
  /-- Raised by an operation that reads `req_text` when it is longer than MAX_TEXT_LEN (R240). Safe. -/
  | textTooLong (len : Nat)
  /-- Raised by FRAME_ENCODE and TOD_ENCODE when `req_pkt` is not of the type they read (R33, R240). Safe. -/
  | operandNotOfType
  deriving DecidableEq, Repr

/-- The packet whose every field is 0: what `req_pkt` is given at reset. DESIGN CHOICE, log entry 2. -/
def TodPacket.zero : TodPacket where
  protocolVersion := 0
  rdmVersion := 0
  port := 0
  bindingIndex := 0
  net := 0
  command := .fullTod
  address := 0
  uidTotal := ⟨0⟩
  blockCount := 0
  uidCount := 0
  tod := []

/-- The request registers at reset: 'unspecified' in R250, so these values are the model's. DESIGN CHOICE, unsafe,
log entry 2. -/
def Request.reset : Request where
  op := 0
  buf := []
  pkt := .packet (.todData TodPacket.zero)
  addrA := .v4 0
  addrB := .v4 0
  text := []
  u16 := ⟨0⟩

/-- The machine right after reset (R38, R250): no response register holds a value and `cur` does not exist. -/
def State.reset : State where
  req := Request.reset
  rsp := {}
  cur := none
  requester := []
  lastRead := none

end Sys2Proof.Machine
end

