-- ==== Sys2Proof/Machine/Flags.lean ====
section
/-! DEFINITION. The status codes (R221) and what the response registers hold after each error (R226) and each
result (R34). The block has no condition flags: `rsp_status` and the error registers are its only status. -/

namespace Sys2Proof.Machine

/-- The code of OK (R221). -/
def statusOk : BitVec 3 := 0

/-- The status code of an error (R221). -/
def BlockError.code : BlockError → BitVec 3
  | .unknownOpCode _ => 1
  | .truncatedBuffer _ _ => 2
  | .invalidEnumValue _ _ => 3
  | .invalidAddressLength _ _ => 4
  | .invalidAddressText _ => 5

/-- The ASCII string a field name stands for (R224, D36). -/
def FieldName.ascii : FieldName → Text
  | .command => [0x63, 0x6F, 0x6D, 0x6D, 0x61, 0x6E, 0x64]

/-- The response registers after an error: its code and its payload registers, nothing else (R221, R226). -/
def errorResponse (e : BlockError) : Response :=
  match e with
  | .unknownOpCode raw => { status := some e.code, errRaw := some raw }
  | .truncatedBuffer expected actual =>
    { status := some e.code, errExpected := some expected, errActual := some actual }
  | .invalidEnumValue field raw =>
    { status := some e.code, errField := some field, errRaw := some (raw.setWidth 16) }
  | .invalidAddressLength expected actual =>
    { status := some e.code, errExpected := some expected, errActual := some actual }
  | .invalidAddressText text => { status := some e.code, errText := some text }

/-- The response registers after a result: status OK and the registers R34 lists for the operation, nothing else. -/
def okResponse : Output → Response
  | .frame opcode v => { status := some statusOk, opcode := some opcode, pkt := some (.packet v) }
  | .tod pkt => { status := some statusOk, pkt := some (.tod pkt) }
  | .bytes b => { status := some statusOk, buf := some b }
  | .addr a => { status := some statusOk, addr := some a }
  | .text t => { status := some statusOk, text := some t }
  | .bool b => { status := some statusOk, bool := some b }

end Sys2Proof.Machine
end

