-- ==== Sys2Proof/Machine/Ops.lean ====
section
/-! DEFINITION. The shared operations: the guarded read (R52), how an operation ends (`raise`, R226, and `done`,
R10), the dispatch lookup (R141), and the next instruction a request selects (R70). -/

namespace Sys2Proof.Machine

/-- The decode cursor over the buffer being decoded (R35, R50). It lives only while an operation runs. -/
structure Cursor where
  inp : List Byte
  cur : Nat
  deriving DecidableEq, Repr

/-- `cur <- 0` on a buffer (R35). -/
def Cursor.start (inp : List Byte) : Cursor := ⟨inp, 0⟩

/-- `rd(w)` (R52): the next `w` bytes, or TruncatedBuffer with the counts of R223. -/
def rd (w : Nat) (c : Cursor) : Except BlockError (List Byte × Cursor) :=
  if c.cur + w > c.inp.length then .error (.truncatedBuffer (c.cur + w) c.inp.length)
  else .ok (memRead c.inp c.cur w, { c with cur := c.cur + w })

/-- `rd(1)[0]`: one byte. -/
def rdByte (c : Cursor) : Except BlockError (Byte × Cursor) :=
  (rd 1 c).map fun r => (r.1.headD 0, r.2)

/-- `be_N(rd(w))`: one big-endian field of `w` bytes. -/
def rdBe (n w : Nat) (c : Cursor) : Except BlockError (BitVec n × Cursor) :=
  (rd w c).map fun r => (beN n r.1, r.2)

/-- An operation ends: all response registers are written at once (R34), and `cur` ceases to exist (R35). The request
registers are untouched (R11). -/
def State.respond (r : Response) (s : State) : State := { s with rsp := r, cur := none }

/-- `raise E(info)`, the trap entry (R226): the status and the payload registers of E, and no other response
register. There is no saved pc, mode or vector. The return is nothing: the next request is issued as after any other
response (R228). -/
def raise (e : BlockError) (s : State) : State := s.respond (errorResponse e)

/-- `done` (R10): status OK and the results. -/
def done (o : Output) (s : State) : State := s.respond (okResponse o)

/-- How an operation ends: in `done` or in `raise`. -/
def complete (r : Except BlockError Output) (s : State) : State :=
  match r with
  | .ok o => done o s
  | .error e => raise e s

/-- `lookup(o)` (R141). -/
def lookup (o : OpCode) : DecoderId :=
  match Config.dispatch.find? (fun row => row.1 == o) with
  | some row => row.2
  | none => .none

end Sys2Proof.Machine
end

