-- ==== Sys2Proof/Machine/Operands.lean ====
section
/-! DEFINITION. The operands: how an operation reads the request registers its row of R33 names, with the refusals
of R240; how the requester writes a request register (R33) and reads a response register (R256). -/

namespace Sys2Proof.Machine

/-- `len(req_buf) ≤ MAX_BUF_LEN` (R33, R240). The first test is implied by the second; it lets a buffer every
instance admits be told without the free bound. -/
def bufFits (n : Nat) : Bool := Nat.ble n Config.minMaxBufLen || Nat.ble n Config.maxBufLen

/-- `len(req_text) ≤ MAX_TEXT_LEN` (R33, R240), tested in the same way. -/
def textFits (n : Nat) : Bool := Nat.ble n Config.minMaxTextLen || Nat.ble n Config.maxTextLen

/-- A TodPacket's `tod` has at most TOD_MAX entries (R24, R175). -/
def TodPacket.fits (p : TodPacket) : Bool := p.tod.length ≤ Config.todMax

/-- An operation over `req_buf`; refused over a buffer longer than MAX_BUF_LEN (R240). -/
def withBuf (s : State) (f : List Byte → State) : Host.Outcome State Fault Refusal :=
  if bufFits s.req.buf.length then .next (f s.req.buf) else .refused (.bufferTooLong s.req.buf.length)

/-- An operation over `req_text`; refused over a text longer than MAX_TEXT_LEN (R240). -/
def withText (s : State) (f : Text → State) : Host.Outcome State Fault Refusal :=
  if textFits s.req.text.length then .next (f s.req.text) else .refused (.textTooLong s.req.text.length)

/-- FRAME_ENCODE's operand: a PacketValue (R33); anything else in `req_pkt`, a tod of more than TOD_MAX entries
included (log entry 14), is not of its type (R240). -/
def withPacketValue (s : State) (f : PacketValue → State) : Host.Outcome State Fault Refusal :=
  match s.req.pkt with
  | .packet (.todData p) => if p.fits then .next (f (.todData p)) else .refused .operandNotOfType
  | .tod _ => .refused .operandNotOfType

/-- TOD_ENCODE's operand: a TodPacket (R33); refused as for `withPacketValue`. -/
def withTodPacket (s : State) (f : TodPacket → State) : Host.Outcome State Fault Refusal :=
  match s.req.pkt with
  | .tod p => if p.fits then .next (f p) else .refused .operandNotOfType
  | .packet _ => .refused .operandNotOfType

/-- The requester writes one request register (R33). -/
def Request.write (w : ReqWrite) (q : Request) : Request :=
  match w with
  | .op v => { q with op := v }
  | .buf v => { q with buf := v }
  | .pkt v => { q with pkt := v }
  | .addrA v => { q with addrA := v }
  | .addrB v => { q with addrB := v }
  | .text v => { q with text := v }
  | .u16 v => { q with u16 := v }

/-- The value a response register holds, if any (R34). -/
def Response.value (r : RspReg) (p : Response) : Option RspValue :=
  match r with
  | .status => p.status.map .status
  | .buf => p.buf.map .bytes
  | .opcode => p.opcode.map .word
  | .pkt => p.pkt.map .pkt
  | .addr => p.addr.map .addr
  | .text => p.text.map .text
  | .bool => p.bool.map .bool
  | .errExpected => p.errExpected.map .nat
  | .errActual => p.errActual.map .nat
  | .errRaw => p.errRaw.map .word
  | .errField => p.errField.map .field
  | .errText => p.errText.map .text

/-- The requester reads a response register: a fault where it holds no value (R256), and a fault on a status code the
block never produces (I17). -/
def readRsp (r : RspReg) (p : Response) : Except Fault RspValue :=
  match p.value r with
  | none => .error (.noValue r)
  | some (.status code) => if code.toNat ≤ 5 then .ok (.status code) else .error (.reservedStatus code)
  | some v => .ok v

/-- The requester's write as a step of the machine: only the one request register changes (R258). -/
def actWrite (w : ReqWrite) (s : State) : Host.Outcome State Fault Refusal :=
  .next { s with req := s.req.write w }

/-- The requester's read as a step of the machine: no register of the block changes (R61, R256). -/
def actRead (r : RspReg) (s : State) : Host.Outcome State Fault Refusal :=
  match readRsp r s.rsp with
  | .ok v => .next { s with lastRead := some v }
  | .error e => .fault e

/-- A request line of R71: the operand writes, the op-select, and the issue. -/
def requestLine (op : BitVec 4) (operands : List ReqWrite) : List RequesterAct :=
  operands.map .write ++ [.write (.op op), .issue]

end Sys2Proof.Machine
end

