-- ==== Sys2Proof/Machine/Address.lean ====
section
/-! DEFINITION. The network address marshaller (41_address_codec.md): the meanings of its seven operations. -/

namespace Sys2Proof.Machine

/-- An address from `n` raw bytes; any other length is an error (R101, R102). -/
def addrFromBytes (n : Nat) (make : List Byte → NetAddr) (b : List Byte) : Except BlockError Output :=
  if b.length = n then .ok (.addr (make b)) else .error (.invalidAddressLength n b.length)

/-- The raw bytes of an address, in network byte order (R103, R56). -/
def addrToBytes : NetAddr → List Byte
  | .v4 bits => toBe 4 bits
  | .v6 bits => toBe 16 bits

/-- An address from what a parser answers for a text (R108, R109). -/
def addrFromText (t : Text) (parsed : Option NetAddr) : Except BlockError Output :=
  match parsed with
  | some a => .ok (.addr a)
  | none => .error (.invalidAddressText t)

/-- The text of an address (R110). -/
def addrToText : NetAddr → Text
  | .v4 bits => render4 bits
  | .v6 bits => collab6.render bits

/-- Address equality (R106): the same variant tag and the same bit pattern. -/
def addrEq : NetAddr → NetAddr → Bool
  | .v4 a, .v4 b => a == b
  | .v6 a, .v6 b => a == b
  | .v4 _, .v6 _ => false
  | .v6 _, .v4 _ => false

/-- ADDR4_FROM_BYTES (R101). -/
def execAddr4FromBytes (s : State) : Host.Outcome State Fault Refusal :=
  withBuf s fun b => complete (addrFromBytes 4 (fun b => .v4 (beN 32 b)) b) s

/-- ADDR6_FROM_BYTES (R102). -/
def execAddr6FromBytes (s : State) : Host.Outcome State Fault Refusal :=
  withBuf s fun b => complete (addrFromBytes 16 (fun b => .v6 (beN 128 b)) b) s

/-- ADDR4_FROM_TEXT (R108). -/
def execAddr4FromText (s : State) : Host.Outcome State Fault Refusal :=
  withText s fun t => complete (addrFromText t ((collab4.parse t).map .v4)) s

/-- ADDR6_FROM_TEXT (R109). -/
def execAddr6FromText (s : State) : Host.Outcome State Fault Refusal :=
  withText s fun t => complete (addrFromText t ((collab6.parse t).map .v6)) s

/-- ADDR_TO_BYTES (R103). -/
def execAddrToBytes (s : State) : Host.Outcome State Fault Refusal :=
  .next (done (.bytes (addrToBytes s.req.addrA)) s)

/-- ADDR_TO_TEXT (R110). -/
def execAddrToText (s : State) : Host.Outcome State Fault Refusal :=
  .next (done (.text (addrToText s.req.addrA)) s)

/-- ADDR_EQ (R107). -/
def execAddrEq (s : State) : Host.Outcome State Fault Refusal :=
  .next (done (.bool (addrEq s.req.addrA s.req.addrB)) s)

end Sys2Proof.Machine
end

