-- ==== Sys2Proof/Machine/Scalar.lean ====
section
/-! DEFINITION. The scalar wrapper types: the command bytes (R206, R207), the port-address view (R211), and the
construction of a TodPacket (R25, R209). -/

namespace Sys2Proof.Machine

/-- `cmd_to_byte` (R206). -/
def cmdToByte : Command → Byte
  | .fullTod => 0x00
  | .nak => 0xFF

/-- `cmd_from_byte` (R207): any third value is an error, never coerced. -/
def cmdFromByte (c : Byte) : Except BlockError Command :=
  if c = 0x00 then .ok .fullTod
  else if c = 0xFF then .ok .nak
  else .error (.invalidEnumValue .command c)

/-- The Port-Address view (R211): a requester's function of `rsp_pkt`, computed by no operation (R72). -/
def portAddress (v : TodPacket) : BitVec 15 :=
  (((v.net.extractLsb' 0 7).setWidth 15) <<< 8) ||| v.address.setWidth 15

/-- The arguments a requester builds a TodPacket from (R209): the version may be left out, and reserved bytes may be
given. -/
structure TodArgs where
  protocolVersion : Option ProtocolVersion
  rdmVersion : Byte
  port : Byte
  reserved : List Byte
  bindingIndex : Byte
  net : Byte
  command : Command
  address : Byte
  uidTotal : UidTotal
  blockCount : Byte
  uidCount : Byte
  tod : List Uid
  deriving DecidableEq, Repr

/-- Construction: a version left out is PROTVER_DEFAULT (R209), and reserved bytes are discarded (R25). -/
def constructTod (a : TodArgs) : TodPacket where
  protocolVersion := a.protocolVersion.getD Config.protverDefault
  rdmVersion := a.rdmVersion
  port := a.port
  bindingIndex := a.bindingIndex
  net := a.net
  command := a.command
  address := a.address
  uidTotal := a.uidTotal
  blockCount := a.blockCount
  uidCount := a.uidCount
  tod := a.tod

end Sys2Proof.Machine
end

