-- ==== Sys2Proof/Machine/Tod.lean ====
section
/-! DEFINITION. The table-of-devices payload codec (43_tod_packet.md) and the meanings of TOD_DECODE and TOD_ENCODE. -/

namespace Sys2Proof.Machine

/-- Step 10 (R167): `n` UIDs in the order they appear. -/
def rdUids : Nat → Cursor → Except BlockError (List Uid × Cursor)
  | 0, c => .ok ([], c)
  | n + 1, c => do
    let (u, c) ← rdBe 48 6 c
    let (us, c) ← rdUids n c
    return (u :: us, c)

/-- The decode of a payload (R160), in the source's strict field order; bytes after the last UID are ignored (R172). -/
def todDecode (payload : List Byte) : Except BlockError TodPacket := do
  let (protocolVersion, c) ← rdBe 16 2 (Cursor.start payload)
  let (rdmVersion, c) ← rdByte c
  let (port, c) ← rdByte c
  let (_, c) ← rd 6 c
  let (bindingIndex, c) ← rdByte c
  let (net, c) ← rdByte c
  let (commandByte, c) ← rdByte c
  let command ← cmdFromByte commandByte
  let (address, c) ← rdByte c
  let (uidTotal, c) ← rdBe 16 2 c
  let (blockCount, c) ← rdByte c
  let (uidCount, c) ← rdByte c
  let (tod, _) ← rdUids uidCount.toNat c
  return { protocolVersion, rdmVersion, port, bindingIndex, net, command, address,
           uidTotal := ⟨uidTotal⟩, blockCount, uidCount, tod }

/-- Every tod entry as a 6-byte big-endian block, in array order (R169, R174). -/
def wrUids (out : List Byte) (tod : List Uid) : List Byte :=
  tod.foldl (fun out u => wr out (toBe 6 u)) out

/-- The encode of a payload (R169): the fields as held (R173), the reserved bytes zero (R171). -/
def todEncode (v : TodPacket) : List Byte :=
  let out := wr [] (toBe 2 v.protocolVersion)
  let out := wr out [v.rdmVersion]
  let out := wr out [v.port]
  let out := wr out [0, 0, 0, 0, 0, 0]
  let out := wr out [v.bindingIndex]
  let out := wr out [v.net]
  let out := wr out [cmdToByte v.command]
  let out := wr out [v.address]
  let out := wr out (toBe 2 v.uidTotal.raw)
  let out := wr out [v.blockCount]
  let out := wr out [v.uidCount]
  wrUids out v.tod

/-- TOD_DECODE (R160). -/
def execTodDecode (s : State) : Host.Outcome State Fault Refusal :=
  withBuf s fun b => complete ((todDecode b).map .tod) s

/-- TOD_ENCODE (R169). -/
def execTodEncode (s : State) : Host.Outcome State Fault Refusal :=
  withTodPacket s fun p => done (.bytes (todEncode p)) s

end Sys2Proof.Machine
end

