-- ==== Sys2Proof/Machine/Frame.lean ====
section
/-! DEFINITION. The packet envelope (42_envelope_dispatch.md): the meanings of FRAME_DECODE and FRAME_ENCODE, and of
the two kinds of wire opcode FRAME_DECODE dispatches on. -/

namespace Sys2Proof.Machine

/-- A frame with the TodData opcode `o`: its payload is decoded, and an error passes through unchanged (R143, R144). -/
def frameTod (o : OpCode) (payload : List Byte) : Except BlockError Output :=
  (todDecode payload).map fun pkt => .frame o (.todData pkt)

/-- The decode of a frame (R143): the OpCode, low byte first (R54), the lookup, the payload. -/
def frameDecode (frame : List Byte) : Except BlockError Output := do
  let (opcode, _) ← rd 2 (Cursor.start frame)
  let o := le16 (opcode.getD 0 0) (opcode.getD 1 0)
  match lookup o with
  | .none => .error (.unknownOpCode o)
  | .tod => frameTod o (frame.drop 2)

/-- The encode of a frame (R146): the type's constant opcode, then the payload. -/
def frameEncode : PacketValue → List Byte
  | .todData pkt => wr (wr [] (toLe16 Config.opTodData)) (todEncode pkt)

/-- FRAME_DECODE (R143). -/
def execFrameDecode (s : State) : Host.Outcome State Fault Refusal :=
  withBuf s fun b => complete (frameDecode b) s

/-- FRAME_ENCODE (R146). -/
def execFrameEncode (s : State) : Host.Outcome State Fault Refusal :=
  withPacketValue s fun v => done (.bytes (frameEncode v)) s

/-- The wire opcode OP_TODDATA at the head of the frame in `req_buf`: FRAME_DECODE's TOD case (R140, R143). -/
def execOpTodData (s : State) : Host.Outcome State Fault Refusal :=
  withBuf s fun b => complete (frameTod Config.opTodData (b.drop 2)) s

/-- Any other wire opcode at the head of the frame in `req_buf`: UnknownOpCode with the opcode (R142). -/
def execAnyOtherWireOpcode (raw : OpCode) (s : State) : Host.Outcome State Fault Refusal :=
  withBuf s fun _ => raise (.unknownOpCode raw) s

end Sys2Proof.Machine
end

