-- ==== Sys2Proof/Machine/Reserved.lean ====
section
/-! DEFINITION. The reserved op-selects: the block gives them no meaning, so a request with one is refused
(R83, R240). -/

namespace Sys2Proof.Machine

/-- What every reserved op-select does: nothing, by name (R240). -/
def refuseReserved (op : BitVec 4) : Host.Outcome State Fault Refusal :=
  .refused (.reservedOpSelect op)

/-- Op-select 0x0 (R83). -/
def execReserved0 (_s : State) : Host.Outcome State Fault Refusal := refuseReserved 0x0

/-- Op-select 0xD (R83). -/
def execReservedD (_s : State) : Host.Outcome State Fault Refusal := refuseReserved 0xD

/-- Op-select 0xE (R83). -/
def execReservedE (_s : State) : Host.Outcome State Fault Refusal := refuseReserved 0xE

/-- Op-select 0xF (R83). -/
def execReservedF (_s : State) : Host.Outcome State Fault Refusal := refuseReserved 0xF

end Sys2Proof.Machine
end

