-- ==== Sys2Proof/Machine/UidTotalText.lean ====
section
/-! DEFINITION. The meaning of UIDTOTAL_TO_TEXT (44_scalar_types.md). -/

namespace Sys2Proof.Machine

/-- UIDTOTAL_TO_TEXT (R203). -/
def execUidTotalToText (s : State) : Host.Outcome State Fault Refusal :=
  .next (done (.text (hexRenderer.render s.req.u16.raw)) s)

end Sys2Proof.Machine
end

