-- ==== Sys2Proof/Syntax.lean ====
section
/-! DEFINITION. The instructions: one constructor per row of spec/opcode_table.json. The op-select operations carry
no operand fields (R70, R82): their operands are the request registers. The wire opcodes are the second encoding
space, which FRAME_DECODE dispatches on (R74, R141). -/

namespace Sys2Proof

/-- The two encoding formats of spec/opcode_table.json (R70, R74). -/
inductive Format where
  /-- one 4-bit op-select -/
  | opSelect4
  /-- one 16-bit little-endian OpCode, the first two bytes of a frame -/
  | wireOpcode16le
  deriving DecidableEq, Repr

/-- The instructions. -/
inductive Instr where
  | frameDecode
  | frameEncode
  | todDecode
  | todEncode
  | addr4FromBytes
  | addr6FromBytes
  | addr4FromText
  | addr6FromText
  | addrToBytes
  | addrToText
  | addrEq
  | uidTotalToText
  /-- reserved op-select 0x0 (R83) -/
  | reserved0
  /-- reserved op-select 0xD (R83) -/
  | reservedD
  /-- reserved op-select 0xE (R83) -/
  | reservedE
  /-- reserved op-select 0xF (R83) -/
  | reservedF
  /-- the wire opcode `OP_TODDATA` (R74) -/
  | opTodData
  /-- a wire opcode with no decoder (R74, R142) -/
  | anyOtherWireOpcode (raw : OpCode)
  deriving DecidableEq, Repr

/-- The encoding space an instruction belongs to. -/
def Instr.format : Instr → Format
  | .frameDecode | .frameEncode | .todDecode | .todEncode => .opSelect4
  | .addr4FromBytes | .addr6FromBytes | .addr4FromText | .addr6FromText => .opSelect4
  | .addrToBytes | .addrToText | .addrEq | .uidTotalToText => .opSelect4
  | .reserved0 | .reservedD | .reservedE | .reservedF => .opSelect4
  | .opTodData | .anyOtherWireOpcode _ => .wireOpcode16le

end Sys2Proof
end

