-- ==== Sys2Proof/Machine/Dispatch.lean ====
section
/-! DEFINITION. One arm per instruction (R70, R74). -/

namespace Sys2Proof.Machine

def exec (i : Instr) (s : State) : Host.Outcome State Fault Refusal :=
  match i with
  -- the packet encoder and decoder
  | .frameDecode => Sys2Proof.Machine.execFrameDecode s
  | .frameEncode => Sys2Proof.Machine.execFrameEncode s
  | .todDecode => Sys2Proof.Machine.execTodDecode s
  | .todEncode => Sys2Proof.Machine.execTodEncode s
  -- the network address marshaller
  | .addr4FromBytes => Sys2Proof.Machine.execAddr4FromBytes s
  | .addr6FromBytes => Sys2Proof.Machine.execAddr6FromBytes s
  | .addr4FromText => Sys2Proof.Machine.execAddr4FromText s
  | .addr6FromText => Sys2Proof.Machine.execAddr6FromText s
  | .addrToBytes => Sys2Proof.Machine.execAddrToBytes s
  | .addrToText => Sys2Proof.Machine.execAddrToText s
  | .addrEq => Sys2Proof.Machine.execAddrEq s
  -- the scalar wrapper types
  | .uidTotalToText => Sys2Proof.Machine.execUidTotalToText s
  -- reserved op-selects
  | .reserved0 => Sys2Proof.Machine.execReserved0 s
  | .reservedD => Sys2Proof.Machine.execReservedD s
  | .reservedE => Sys2Proof.Machine.execReservedE s
  | .reservedF => Sys2Proof.Machine.execReservedF s
  -- wire opcodes
  | .opTodData => Sys2Proof.Machine.execOpTodData s
  | .anyOtherWireOpcode raw => Sys2Proof.Machine.execAnyOtherWireOpcode raw s

end Sys2Proof.Machine
end

