-- ==== Sys2Proof/Decode.lean ====
section
/-! DEFINITION. Decoding: the op-select map of R70 and the wire opcode map of R74, total on any bytes, and the
encoder written from the same two tables. -/

namespace Sys2Proof

/-- Why bytes are no instruction of a format. -/
inductive DecodeReject where
  /-- an op-select of no bytes -/
  | missingOpSelect
  /-- a byte with a bit above the 4-bit op-select set; log entry 17 -/
  | opSelectTooWide
  /-- fewer than the two bytes of an OpCode -/
  | missingOpCode
  deriving DecidableEq, Repr

/-- The op-select map (R70, R83). All 16 values are mapped. -/
def decodeOpSelect (op : BitVec 4) : Instr :=
  match op.toNat with
  | 0x1 => .frameDecode
  | 0x2 => .frameEncode
  | 0x3 => .todDecode
  | 0x4 => .todEncode
  | 0x5 => .addr4FromBytes
  | 0x6 => .addr6FromBytes
  | 0x7 => .addr4FromText
  | 0x8 => .addr6FromText
  | 0x9 => .addrToBytes
  | 0xA => .addrToText
  | 0xB => .addrEq
  | 0xC => .uidTotalToText
  | 0xD => .reservedD
  | 0xE => .reservedE
  | 0xF => .reservedF
  | _ => .reserved0

/-- The wire opcode map (R74). -/
def decodeWireOpcode (o : OpCode) : Instr :=
  if o = Config.opTodData then .opTodData else .anyOtherWireOpcode o

/-- The decoder: the instruction of a format and the bytes after it. -/
def decode : Format → List Byte → Except DecodeReject (Instr × List Byte)
  | .opSelect4, [] => .error .missingOpSelect
  | .opSelect4, b :: rest =>
    if b.toNat < 16 then .ok (decodeOpSelect (b.setWidth 4), rest) else .error .opSelectTooWide
  | .wireOpcode16le, lo :: hi :: rest => .ok (decodeWireOpcode (Machine.le16 lo hi), rest)
  | .wireOpcode16le, [] => .error .missingOpCode
  | .wireOpcode16le, [_] => .error .missingOpCode

/-- The encoder: an op-select as one byte with a zero high half (log entry 17), a wire opcode as its two bytes, the
low one first (R54). -/
def encode : Instr → List Byte
  | .reserved0 => [0x00]
  | .frameDecode => [0x01]
  | .frameEncode => [0x02]
  | .todDecode => [0x03]
  | .todEncode => [0x04]
  | .addr4FromBytes => [0x05]
  | .addr6FromBytes => [0x06]
  | .addr4FromText => [0x07]
  | .addr6FromText => [0x08]
  | .addrToBytes => [0x09]
  | .addrToText => [0x0A]
  | .addrEq => [0x0B]
  | .uidTotalToText => [0x0C]
  | .reservedD => [0x0D]
  | .reservedE => [0x0E]
  | .reservedF => [0x0F]
  | .opTodData => Machine.toLe16 Config.opTodData
  | .anyOtherWireOpcode raw => Machine.toLe16 raw

/-- The bytes of a table word, its lowest byte first, as many as hold `nbits`. -/
def tableWordBytes (nbits w : Nat) : List Byte :=
  if nbits ≤ 8 then [BitVec.ofNat 8 w] else Machine.toLe16 (BitVec.ofNat 16 w)

/-- The format of a table row by its width: 4 bits (one byte) for an op-select, 16 for a wire opcode. -/
def tableWordFormat (nbits : Nat) : Format :=
  if nbits ≤ 8 then .opSelect4 else .wireOpcode16le

/-- The instruction the decoder reads from a table word. -/
def decodeTableWord (nbits w : Nat) : Option Instr :=
  if nbits ≤ 16 ∧ w < 65536 ∧ (nbits ≤ 8 → w < 256) then
    match decode (tableWordFormat nbits) (tableWordBytes nbits w) with
    | .ok (i, _) => some i
    | .error _ => none
  else none

end Sys2Proof
end

