-- ==== Sys2Proof/Machine/Fetch.lean ====
section
/-! DEFINITION. What an issued request runs, and how a table word is presented to the block as its next request. -/

namespace Sys2Proof.Machine

/-- The instruction an issued request runs: the one its op-select names (R70). The block fetches nothing (R31). -/
def selected (s : State) : Instr := decodeOpSelect s.req.op

/-- `req_pkt` holding the same packet as the type an op-select reads: a PacketValue for FRAME_ENCODE, a TodPacket for
TOD_ENCODE, as it stands for any other (R33). Log entry 19. -/
def PktReg.presentedTo (op : BitVec 4) : PktReg → PktReg
  | .tod p => if op = 2 then .packet (.todData p) else .tod p
  | .packet (.todData p) => if op = 4 then .tod p else .packet (.todData p)

/-- The frame of a wire opcode whose every later byte is zero: the two opcode bytes and a TodData header of 18 zero
bytes, which calls for no UID (R75, R76). Log entry 19. -/
def wireFrame (raw : OpCode) : List Byte := toLe16 raw ++ List.replicate 18 0

/-- The request registers that make a table word the next request. -/
def Request.withTableWord (q : Request) (nbits w : Nat) : Request :=
  if nbits ≤ 8 then
    { q with op := BitVec.ofNat 4 w, pkt := q.pkt.presentedTo (BitVec.ofNat 4 w) }
  else { q with op := 1, buf := wireFrame (BitVec.ofNat 16 w) }

end Sys2Proof.Machine
end

