-- ==== Sys2Proof/Machine/Step.lean ====
section
/-! DEFINITION. One step: the requester's next action (log entry 1). An issue is the block's own transition, from
request to response in one step (R262); with no action to come the block waits (R239, log entry 21). -/

namespace Sys2Proof.Machine

def step (s : State) : Host.Outcome State Fault Refusal :=
  match s.requester with
  | [] => .next s
  | .write w :: rest => actWrite w { s with requester := rest }
  | .read r :: rest => actRead r { s with requester := rest }
  | .issue :: rest => exec (selected s) { s with requester := rest }

/-- `s` with a table word presented as the request the next step issues. Log entry 19. -/
def State.withFetchWord (s : State) (nbits w : Nat) : State :=
  { s with req := s.req.withTableWord nbits w, requester := .issue :: s.requester }

end Sys2Proof.Machine
end

