-- ==== Sys2Proof/Safety.lean ====
section
/-! DEFINITION. The terms claims are stated in: the layouts of 30_encoding.md written out byte by byte, which
requests are admitted (R240), which registers a response holds (R34), which registers an operation reads (R33), and
the invariant of the state. Nothing here is called by the machine. -/

namespace Sys2Proof.Machine

/-- Count-consistent (R26). -/
abbrev TodPacket.CountConsistent (v : TodPacket) : Prop := v.uidCount.toNat = v.tod.length

/-- Within the register's capacity (R24, R175). -/
abbrev TodPacket.WithinCapacity (v : TodPacket) : Prop := v.tod.length ≤ Config.todMax

/-- Bits [8k+7:8k] of a value. -/
def byteAt {w : Nat} (v : BitVec w) (k : Nat) : Byte := v.extractLsb' (8 * k) 8

/-- The 6-byte block of one UID, most significant byte first (R77). -/
def uidBlock (u : Uid) : List Byte := [byteAt u 5, byteAt u 4, byteAt u 3, byteAt u 2, byteAt u 1, byteAt u 0]

/-- The TodData payload of R76 and R77 with the given bytes at the reserved offsets 4 to 9. -/
def payloadLayout (v : TodPacket) (reserved : List Byte) : List Byte :=
  [byteAt v.protocolVersion 1, byteAt v.protocolVersion 0, v.rdmVersion, v.port] ++ reserved ++
  [v.bindingIndex, v.net, cmdToByte v.command, v.address, byteAt v.uidTotal.raw 1, byteAt v.uidTotal.raw 0,
    v.blockCount, v.uidCount] ++ v.tod.flatMap uidBlock

/-- The six reserved bytes as encode writes them (R171). -/
def zeroReserved : List Byte := [0, 0, 0, 0, 0, 0]

/-- The frame of R73 and R75: the OpCode, low byte first, then the payload. -/
def frameLayout (o : OpCode) (payload : List Byte) : List Byte := byteAt o 0 :: byteAt o 1 :: payload

/-- The raw bytes of an address, most significant first (R28, R79). -/
def rawLayout : NetAddr → List Byte
  | .v4 b => [byteAt b 3, byteAt b 2, byteAt b 1, byteAt b 0]
  | .v6 b => [byteAt b 15, byteAt b 14, byteAt b 13, byteAt b 12, byteAt b 11, byteAt b 10, byteAt b 9, byteAt b 8,
      byteAt b 7, byteAt b 6, byteAt b 5, byteAt b 4, byteAt b 3, byteAt b 2, byteAt b 1, byteAt b 0]

/-- The length the first header step that cannot be read in a payload of `n < 18` bytes needs: the end of its field
in R76 (R52, R160). -/
def headerStepEnd (n : Nat) : Nat :=
  if n < 2 then 2 else if n < 4 then n + 1 else if n < 10 then 10 else if n < 14 then n + 1
  else if n < 16 then 16 else n + 1

/-- A text is the decimal value `n` with no leading zeros (R114). -/
def IsDecimalOf (t : Text) (n : Nat) : Prop :=
  ∃ ds, digitVals decVal t = some ds ∧ ds ≠ [] ∧ valueBE 10 ds = n ∧ (ds.head? = some 0 → ds = [0])

/-- The reserved op-selects (R83). -/
def Instr.IsReserved (i : Instr) : Prop := i = .reserved0 ∨ i = .reservedD ∨ i = .reservedE ∨ i = .reservedF

/-- The request is not refused (R240): the op-select is not reserved, and the registers the operation reads (R33) hold
values of their types. -/
def Admitted (i : Instr) (s : State) : Prop :=
  match i with
  | .frameDecode | .todDecode | .addr4FromBytes | .addr6FromBytes | .opTodData | .anyOtherWireOpcode _ =>
    s.req.buf.length ≤ Config.maxBufLen
  | .frameEncode => ∃ p : TodPacket, s.req.pkt = .packet (.todData p) ∧ p.WithinCapacity
  | .todEncode => ∃ p : TodPacket, s.req.pkt = .tod p ∧ p.WithinCapacity
  | .addr4FromText | .addr6FromText => s.req.text.length ≤ Config.maxTextLen
  | .addrToBytes | .addrToText | .addrEq | .uidTotalToText => True
  | .reserved0 | .reservedD | .reservedE | .reservedF => False

/-- Two states agree on the request registers the operation's row of R33 names. -/
def SameOperands (i : Instr) (s t : State) : Prop :=
  match i with
  | .frameDecode | .todDecode | .addr4FromBytes | .addr6FromBytes | .opTodData | .anyOtherWireOpcode _ =>
    s.req.buf = t.req.buf
  | .frameEncode | .todEncode => s.req.pkt = t.req.pkt
  | .addr4FromText | .addr6FromText => s.req.text = t.req.text
  | .addrToBytes | .addrToText => s.req.addrA = t.req.addrA
  | .addrEq => s.req.addrA = t.req.addrA ∧ s.req.addrB = t.req.addrB
  | .uidTotalToText => s.req.u16 = t.req.u16
  | .reserved0 | .reservedD | .reservedE | .reservedF => True

/-- The statuses an operation may end with (R221, the column 'raised by'). -/
def possibleStatus : Instr → List (BitVec 3)
  | .frameDecode => [0, 1, 2, 3]
  | .todDecode | .opTodData => [0, 2, 3]
  | .addr4FromBytes | .addr6FromBytes => [0, 4]
  | .addr4FromText | .addr6FromText => [0, 5]
  | .anyOtherWireOpcode _ => [1]
  | .frameEncode | .todEncode | .addrToBytes | .addrToText | .addrEq | .uidTotalToText => [0]
  | .reserved0 | .reservedD | .reservedE | .reservedF => []

/-- The response registers R34 lists as written on OK. -/
def writtenOnOk : Instr → List RspReg
  | .frameEncode | .todEncode | .addrToBytes => [.buf]
  | .frameDecode | .opTodData => [.opcode, .pkt]
  | .todDecode => [.pkt]
  | .addr4FromBytes | .addr6FromBytes | .addr4FromText | .addr6FromText => [.addr]
  | .addrToText | .uidTotalToText => [.text]
  | .addrEq => [.bool]
  | .anyOtherWireOpcode _ | .reserved0 | .reservedD | .reservedE | .reservedF => []

/-- The response registers R34 and R221 list as written for an operation that ended with a status. -/
def writtenFor (i : Instr) (status : BitVec 3) : List RspReg :=
  .status :: match status.toNat with
    | 0 => writtenOnOk i
    | 1 => [.errRaw]
    | 2 => [.errExpected, .errActual]
    | 3 => [.errField, .errRaw]
    | 4 => [.errExpected, .errActual]
    | 5 => [.errText]
    | _ => []

/-- No result register holds a value. -/
def Response.NoResult (r : Response) : Prop :=
  r.buf = none ∧ r.opcode = none ∧ r.pkt = none ∧ r.addr = none ∧ r.text = none ∧ r.bool = none

/-- No error register holds a value. -/
def Response.NoError (r : Response) : Prop :=
  r.errExpected = none ∧ r.errActual = none ∧ r.errRaw = none ∧ r.errField = none ∧ r.errText = none

/-- What the response registers satisfy before the first request and after every one (R34, R38, R221 to R227, R145,
R147, R175, R178). -/
structure Response.Consistent (r : Response) : Prop where
  /-- codes 6 and 7 are never produced (R221) -/
  statusLegal : ∀ c, r.status = some c → c.toNat ≤ 5
  /-- before the first completed operation nothing holds a value (R38) -/
  beforeFirst : r.status = none → r.NoResult ∧ r.NoError
  /-- OK writes no error register (R34) -/
  onOk : r.status = some 0 → r.NoError
  /-- an error writes no result register (R226) -/
  onError : ∀ c, r.status = some c → c ≠ 0 → r.NoResult
  /-- UnknownOpCode records an opcode with no decoder (R222) -/
  unknownOpCode : r.status = some 1 → ∃ o, r.errRaw = some o ∧ o ≠ Config.opTodData
  /-- TruncatedBuffer needed more than there was (R223) -/
  truncated : r.status = some 2 → ∃ e a, r.errExpected = some e ∧ r.errActual = some a ∧ a < e
  /-- InvalidEnumValue records the field and a byte that is no command (R224) -/
  invalidEnum : r.status = some 3 →
    ∃ c : Byte, r.errField = some .command ∧ r.errRaw = some (c.setWidth 16) ∧ c ≠ 0x00 ∧ c ≠ 0xFF
  /-- InvalidAddressLength records 4 or 16 and another length (R225) -/
  invalidLength : r.status = some 4 → ∃ e a, r.errExpected = some e ∧ r.errActual = some a ∧ (e = 4 ∨ e = 16) ∧ a ≠ e
  /-- InvalidAddressText records the text (R227) -/
  invalidText : r.status = some 5 → ∃ t, r.errText = some t
  /-- `rsp_opcode` is the opcode of the packet's type and comes with a PacketValue (R145) -/
  opcodeOfType : ∀ o, r.opcode = some o → o = Config.opTodData ∧ ∃ p, r.pkt = some (.packet (.todData p))
  /-- a decoded packet is count-consistent (R178) -/
  packetCounted : ∀ p, r.pkt = some (.tod p) ∨ r.pkt = some (.packet (.todData p)) → p.CountConsistent
  /-- no buffer the block emits is longer than the longest frame (R147) -/
  bufferBound : ∀ b, r.buf = some b → b.length ≤ Config.minMaxBufLen

/-- The invariant of the state: the response registers are consistent, and `cur` exists only while an operation runs
(R35). -/
structure State.Inv (s : State) : Prop where
  response : s.rsp.Consistent
  cursor : s.cur = none

end Sys2Proof.Machine
end

