-- ==== Sys2Proof/WellFormed.lean ====
section
/-! DEFINITION. Which terms of Instr stand for an encoding. The only operand with an illegal value is the raw
opcode of `anyOtherWireOpcode`: OP_TODDATA is not one of the 65,535 unknown opcodes (R74). -/

namespace Sys2Proof

/-- An instruction stands for an encoding of the table. -/
def Instr.wellFormed : Instr → Bool
  | .anyOtherWireOpcode raw => raw != Config.opTodData
  | .frameDecode | .frameEncode | .todDecode | .todEncode => true
  | .addr4FromBytes | .addr6FromBytes | .addr4FromText | .addr6FromText => true
  | .addrToBytes | .addrToText | .addrEq | .uidTotalToText => true
  | .reserved0 | .reservedD | .reservedE | .reservedF => true
  | .opTodData => true

end Sys2Proof
end

