-- ==== Sys2Proof/Certificates/Slice0/Obligations.lean ====
section
/-! DEFINITION. The statements about the machine, from the spec's numbered rules. Where one names PARSE4, PARSE6, RENDER6 or
RENDER_HEX16, it holds for every lawful collaborator. The numbers 1 to 5 of the error statuses, and that a register an
operation does not write holds no value, are the spec's own decisions (D3, D20, D35; log entries 3 and 16). -/

open Sys2Proof Sys2Proof.Machine

/-! Encoding -/

/-- R70, R74, R83: a few words of the tables. A sanity statement. -/
def Obligations.TableWordsDecode : Prop :=
  decodeTableWord 8 0x1 = some .frameDecode ∧ decodeTableWord 8 0x4 = some .todEncode ∧
  decodeTableWord 8 0x6 = some .addr6FromBytes ∧ decodeTableWord 8 0xC = some .uidTotalToText ∧
  decodeTableWord 8 0x0 = some .reserved0 ∧ decodeTableWord 8 0xE = some .reservedE ∧
  decode .wireOpcode16le [0x00, 0x81, 0x07] = .ok (.opTodData, [0x07]) ∧
  decode .wireOpcode16le [0x81, 0x00] = .ok (.anyOtherWireOpcode 0x0081, [])

/-- R54, R70, R74: decoding the encoding of a well-formed instruction gives it back, whatever bytes follow. -/
def Obligations.DecodeEncodeAgree : Prop :=
  ∀ (i : Instr) (rest : List Byte), i.wellFormed = true → decode i.format (encode i ++ rest) = .ok (i, rest)

/-- R54, R70, R74: what the decoder accepts is a well-formed instruction of the format, and the bytes it took are its
encoding; so no two byte sequences stand for one instruction. That an op-select stands as one byte with a zero high half,
and that any other byte is rejected, is the model's choice (log entry 17, DESIGN CHOICE). -/
def Obligations.EncodeDecodeAgree : Prop :=
  ∀ (f : Format) (bytes rest : List Byte) (i : Instr), decode f bytes = .ok (i, rest) →
    i.format = f ∧ i.wellFormed = true ∧ encode i ++ rest = bytes

/-- R141, R32: the lookup has one entry, and every other opcode has no decoder. -/
def Obligations.LookupHasOneEntry : Prop :=
  lookup Config.opTodData = .tod ∧ ∀ o : OpCode, o ≠ Config.opTodData → lookup o = .none

/-! Reset, the requester's side, and what a step runs -/

/-- R38: after reset DISPATCH holds its contents, no response register holds a value, so that reading one faults, and
`cur` does not exist. -/
def Obligations.ResetHoldsNoResponse : Prop :=
  (∀ o : OpCode, lookup o = if o = Config.opTodData then DecoderId.tod else DecoderId.none) ∧
  (∀ r, readRsp r State.reset.rsp = .error (.noValue r)) ∧
  (∀ r rest, step { State.reset with requester := .read r :: rest } = .fault (.noValue r)) ∧
  State.reset.cur = none

/-- The model's choice (log entries 1, 2 and 22, DESIGN CHOICE), not the spec's: what the request registers and the
requester's side hold at reset. -/
def Obligations.ResetRequestChoice : Prop :=
  State.reset.req.op = 0 ∧ State.reset.req.buf = [] ∧
  State.reset.req.pkt = .packet (.todData ⟨0, 0, 0, 0, 0, .fullTod, 0, ⟨0⟩, 0, 0, []⟩) ∧
  State.reset.req.addrA = .v4 0 ∧ State.reset.req.addrB = .v4 0 ∧ State.reset.req.text = [] ∧
  State.reset.req.u16 = ⟨0⟩ ∧ State.reset.requester = [] ∧ State.reset.lastRead = none

/-- R70, R257: an issue runs the instruction the op-select decodes to, on the registers as they are, in one step. -/
def Obligations.IssueRunsSelected : Prop :=
  (∀ (s : State) (rest : List RequesterAct) (i : Instr), s.requester = .issue :: rest →
    decode .opSelect4 [s.req.op.setWidth 8] = .ok (i, []) → step s = exec i { s with requester := rest }) ∧
  ∀ op : BitVec 4, ∃ i, decode .opSelect4 [op.setWidth 8] = .ok (i, []) ∧ i.wellFormed = true

/-- R141, R143: an issue of FRAME_DECODE on a frame that begins with a wire opcode runs the instruction the opcode decodes
to. -/
def Obligations.IssueRunsWireInstruction : Prop :=
  ∀ (s : State) (rest : List RequesterAct) (i : Instr) (payload : List Byte), s.requester = .issue :: rest →
    s.req.op = 1 → decode .wireOpcode16le s.req.buf = .ok (i, payload) →
    step s = exec i { s with requester := rest }

/-- R70, R74: a word of the opcode table, presented as the next request, is what the next step runs. -/
def Obligations.TableWordRunsNext : Prop :=
  ∀ (s : State) (nbits w : Nat) (i : Instr), decodeTableWord nbits w = some i →
    step (s.withFetchWord nbits w) = exec i { s.withFetchWord nbits w with requester := s.requester }

/-- R71: a request line writes its operands and its op-select, in order, and then runs the operation. -/
def Obligations.RequestLineRuns : Prop :=
  ∀ (s : State) (op : BitVec 4) (operands : List ReqWrite) (rest : List RequesterAct),
    s.requester = requestLine op operands ++ rest →
    Host.Core.run Sys2Proof.core (operands.length + 2) s =
      exec (decodeOpSelect op)
        { s with req := (operands.foldl (fun q w => q.write w) s.req).write (.op op), requester := rest }

/-- R239: with no request to come the block waits, and holds its state. The step that does so is the model's reading
(log entry 21, DEDUCED). -/
def Obligations.IdleBlockWaits : Prop :=
  ∀ s : State, s.requester = [] → step s = .next s

/-- R33, R258: a write of a request register changes that register only; no response register changes. -/
def Obligations.RequestWriteChangesOneRegister : Prop :=
  ∀ (s : State) (w : ReqWrite) (rest : List RequesterAct), s.requester = .write w :: rest →
    ∃ q : Request, step s = .next { s with req := q, requester := rest } ∧
      match w with
      | .op v => q = { s.req with op := v }
      | .buf v => q = { s.req with buf := v }
      | .pkt v => q = { s.req with pkt := v }
      | .addrA v => q = { s.req with addrA := v }
      | .addrB v => q = { s.req with addrB := v }
      | .text v => q = { s.req with text := v }
      | .u16 v => q = { s.req with u16 := v }

/-- R256, and I17 for the codes never produced: a read of a register that holds no value faults; of a register that
holds one, it gives it and changes no register of the block. -/
def Obligations.ReadFaultsWithoutValue : Prop :=
  ∀ (s : State) (r : RspReg) (rest : List RequesterAct), s.requester = .read r :: rest →
    (s.rsp.value r = none → step s = .fault (.noValue r)) ∧
    (∀ v, s.rsp.value r = some v → (∀ c, v = .status c → c.toNat ≤ 5) →
      step s = .next { s with requester := rest, lastRead := some v }) ∧
    (∀ c, s.rsp.value r = some (.status c) → 5 < c.toNat → step s = .fault (.reservedStatus c))

/-! What holds of every operation -/

/-- R34: after an operation, a read of a response register succeeds exactly where the table lists the register for the
operation and its status, and faults elsewhere. -/
def Obligations.ReadableExactlyWhereWritten : Prop :=
  ∀ (i : Instr) (s t : State) (status : BitVec 3), exec i s = .next t → t.rsp.status = some status →
    ∀ r, (r ∈ writtenFor i status → ∃ v, readRsp r t.rsp = .ok v) ∧
      (r ∉ writtenFor i status → readRsp r t.rsp = .error (.noValue r))

/-- R221: an operation ends with a status its row allows. -/
def Obligations.StatusAmongPossible : Prop :=
  ∀ (i : Instr) (s t : State), exec i s = .next t → ∃ c ∈ possibleStatus i, t.rsp.status = some c

/-- R11, R35: an operation changes no request register, and leaves no cursor (log entry 5, DESIGN CHOICE); and it leaves
the requester's side alone, which is the model's own (log entries 1 and 22, DESIGN CHOICE). -/
def Obligations.OperationsChangeNoInput : Prop :=
  ∀ (i : Instr) (s t : State), exec i s = .next t →
    t.req = s.req ∧ t.requester = s.requester ∧ t.lastRead = s.lastRead ∧ t.cur = none

/-- R33, R51, R63: the response depends on nothing but the request registers the operation's row names. -/
def Obligations.ResponseDependsOnOperandsOnly : Prop :=
  ∀ (i : Instr) (s t s' : State), SameOperands i s t → exec i s = .next s' →
    ∃ t', exec i t = .next t' ∧ t'.rsp = s'.rsp

/-- R61: the same request again gives the same response. -/
def Obligations.OperationsAreIdempotent : Prop :=
  ∀ (i : Instr) (s t : State), exec i s = .next t → ∃ u, exec i t = .next u ∧ u.rsp = t.rsp

/-- R220: whatever an operation ended with, the next request is answered as it would have been before it. -/
def Obligations.NoOperationAffectsTheNext : Prop :=
  ∀ (i j : Instr) (s t : State) (q : Request), exec i s = .next t →
    (∀ x, exec j { s with req := q } = .next x → ∃ y, exec j { t with req := q } = .next y ∧ y.rsp = x.rsp) ∧
    (∀ r, exec j { s with req := q } = .refused r → exec j { t with req := q } = .refused r)

/-- R240, R260: an admitted request completes, and every other is refused; no operation faults. -/
def Obligations.AdmittedRequestsComplete : Prop :=
  ∀ (i : Instr) (s : State), (Admitted i s → ∃ t, exec i s = .next t) ∧
    (¬ Admitted i s → ∃ r, exec i s = .refused r)

/-- R240: each refusal by name. -/
def Obligations.RefusalsByName : Prop :=
  ∀ s : State,
    (∀ i ∈ [Instr.frameDecode, .todDecode, .addr4FromBytes, .addr6FromBytes],
      Config.maxBufLen < s.req.buf.length → exec i s = .refused (.bufferTooLong s.req.buf.length)) ∧
    (∀ i ∈ [Instr.addr4FromText, .addr6FromText],
      Config.maxTextLen < s.req.text.length → exec i s = .refused (.textTooLong s.req.text.length)) ∧
    (∀ p, s.req.pkt = .tod p → exec .frameEncode s = .refused .operandNotOfType) ∧
    (∀ v, s.req.pkt = .packet v → exec .todEncode s = .refused .operandNotOfType) ∧
    (∀ p : TodPacket, Config.todMax < p.tod.length →
      (s.req.pkt = .packet (.todData p) → exec .frameEncode s = .refused .operandNotOfType) ∧
      (s.req.pkt = .tod p → exec .todEncode s = .refused .operandNotOfType))

/-- R83, R240: a request with a reserved op-select is refused, and so is each reserved instruction. -/
def Obligations.ReservedSelectsRefused : Prop :=
  (∀ (s : State) (rest : List RequesterAct), s.requester = .issue :: rest → s.req.op ∈ [0x0, 0xD, 0xE, 0xF] →
    step s = .refused (.reservedOpSelect s.req.op)) ∧
  ∀ s : State, exec .reserved0 s = .refused (.reservedOpSelect 0x0) ∧
    exec .reservedD s = .refused (.reservedOpSelect 0xD) ∧
    exec .reservedE s = .refused (.reservedOpSelect 0xE) ∧
    exec .reservedF s = .refused (.reservedOpSelect 0xF)

/-- R231: the operations that raise nothing finish with status OK. -/
def Obligations.TotalOperationsFinishOk : Prop :=
  ∀ (s : State), ∀ i ∈ [Instr.frameEncode, .todEncode, .addrToBytes, .addrToText, .addrEq, .uidTotalToText],
    Admitted i s → ∃ t, exec i s = .next t ∧ t.rsp.status = some 0

/-- R86: a decode of any admitted buffer ends in OK with a value, or in exactly one error. -/
def Obligations.DecodeIsTotal : Prop :=
  ∀ s : State, s.req.buf.length ≤ Config.maxBufLen →
    (∃ t, exec .frameDecode s = .next t ∧
      ((t.rsp.status = some 0 ∧ ∃ p, t.rsp.pkt = some (.packet (.todData p))) ∨
        ((t.rsp.status = some 1 ∨ t.rsp.status = some 2 ∨ t.rsp.status = some 3) ∧ t.rsp.NoResult))) ∧
    (∃ t, exec .todDecode s = .next t ∧
      ((t.rsp.status = some 0 ∧ ∃ p, t.rsp.pkt = some (.tod p)) ∨
        ((t.rsp.status = some 2 ∨ t.rsp.status = some 3) ∧ t.rsp.NoResult)))

/-- The invariant at reset (R38). -/
def Obligations.ResetMeetsInvariant : Prop := State.reset.Inv

/-- R34, R35, R145, R147, R178, R221 to R227: every step keeps the response registers consistent and leaves no
cursor. -/
def Obligations.StepKeepsInvariant : Prop :=
  ∀ s t : State, s.Inv → step s = .next t → t.Inv

/-! TOD_DECODE and TOD_ENCODE -/

/-- R161, R162, R164, R165, R166, R172: a payload that holds a packet, any reserved bytes and any trailing bytes decodes
to that packet. -/
def Obligations.TodDecodeResult : Prop :=
  ∀ (s : State) (v : TodPacket) (reserved trailing : List Byte), v.CountConsistent → reserved.length = 6 →
    s.req.buf = payloadLayout v reserved ++ trailing → s.req.buf.length ≤ Config.maxBufLen →
    exec .todDecode s = .next { s with rsp := { status := some 0, pkt := some (.tod v) }, cur := none }

/-- R52, R160, R164: a payload that ends inside the header fails with the length its next step needed, unless an invalid
command byte came before (log entry 15, DEDUCED: R168 names no such exception). -/
def Obligations.TodDecodeHeaderTruncated : Prop :=
  ∀ s : State, s.req.buf.length < 18 → (∀ c, s.req.buf[12]? = some c → c = 0x00 ∨ c = 0xFF) →
    exec .todDecode s = .next { s with
      rsp := { status := some 2, errExpected := some (headerStepEnd s.req.buf.length),
               errActual := some s.req.buf.length }, cur := none }

/-- R163, R224, R229: a command byte that is neither 0x00 nor 0xFF fails, whatever follows it. -/
def Obligations.TodDecodeInvalidCommand : Prop :=
  ∀ (s : State) (c : Byte), s.req.buf[12]? = some c → c ≠ 0x00 → c ≠ 0xFF →
    s.req.buf.length ≤ Config.maxBufLen →
    exec .todDecode s = .next { s with
      rsp := { status := some 3, errField := some .command, errRaw := some (c.setWidth 16) }, cur := none }

/-- R167: a payload with a good header that ends inside UID `k` fails with the length that UID needed. -/
def Obligations.TodDecodeUidTruncated : Prop :=
  ∀ (s : State) (c n : Byte) (k : Nat), s.req.buf[12]? = some c → (c = 0x00 ∨ c = 0xFF) →
    s.req.buf[17]? = some n → k < n.toNat → 18 + 6 * k ≤ s.req.buf.length →
    s.req.buf.length < 18 + 6 * (k + 1) →
    exec .todDecode s = .next { s with
      rsp := { status := some 2, errExpected := some (18 + 6 * (k + 1)), errActual := some s.req.buf.length },
      cur := none }

/-- R178, R175: a decoded packet is count-consistent and within capacity; its port may lie outside 1 to 4. -/
def Obligations.TodDecodeCountsUids : Prop :=
  (∀ (s t : State) (v : TodPacket), exec .todDecode s = .next t → t.rsp.pkt = some (.tod v) →
    v.CountConsistent ∧ v.WithinCapacity) ∧
  ∃ (s t : State) (v : TodPacket), exec .todDecode s = .next t ∧ t.rsp.pkt = some (.tod v) ∧ v.port = 0

/-- R169, R171, R173, R174: the payload of a packet is its fields as held, six zero bytes, and its UIDs in order. The
version and uidCount as held are the spec's decisions (D6, D7; log entry 16, DEDUCED). -/
def Obligations.TodEncodeResult : Prop :=
  ∀ (s : State) (v : TodPacket), s.req.pkt = .tod v → v.WithinCapacity →
    exec .todEncode s = .next { s with
      rsp := { status := some 0, buf := some (payloadLayout v zeroReserved) }, cur := none }

/-- R147, R170: the lengths of what is encoded depend on the UID list alone. -/
def Obligations.EncodedLengths : Prop :=
  ∀ (s t : State) (v : TodPacket),
    (s.req.pkt = .tod v → exec .todEncode s = .next t →
      ∃ b, t.rsp.buf = some b ∧ b.length = 18 + 6 * v.tod.length) ∧
    (s.req.pkt = .packet (.todData v) → exec .frameEncode s = .next t →
      ∃ b, t.rsp.buf = some b ∧ b.length = 2 + 18 + 6 * v.tod.length ∧ 20 ≤ b.length ∧ b.length ≤ 1550)

/-- R176: the payload of a count-consistent packet decodes to exactly the packet. -/
def Obligations.TodRoundTrip : Prop :=
  ∀ (s : State) (v : TodPacket), s.req.pkt = .tod v → v.CountConsistent →
    ∃ t b, exec .todEncode s = .next t ∧ t.rsp.buf = some b ∧
      ∀ u : State, u.req.buf = b →
        exec .todDecode u = .next { u with rsp := { status := some 0, pkt := some (.tod v) }, cur := none }

/-- R177: encoding what a payload decoded to gives the payload up to its last UID, with the reserved bytes zero. -/
def Obligations.PayloadBytesRoundTrip : Prop :=
  ∀ (s t u : State) (v : TodPacket), exec .todDecode s = .next t → t.rsp.pkt = some (.tod v) → u.req.pkt = .tod v →
    exec .todEncode u = .next { u with
      rsp := { status := some 0, buf := some (s.req.buf.take 4 ++ zeroReserved ++
        (s.req.buf.take (18 + 6 * v.uidCount.toNat)).drop 10) }, cur := none }

/-! FRAME_DECODE, FRAME_ENCODE and the wire opcodes -/

/-- R143 (D12): a frame too short for the OpCode. -/
def Obligations.FrameDecodeShort : Prop :=
  ∀ s : State, s.req.buf.length < 2 →
    exec .frameDecode s = .next { s with
      rsp := { status := some 2, errExpected := some 2, errActual := some s.req.buf.length }, cur := none }

/-- R54, R142, R222: a frame with an OpCode that has no decoder fails with the OpCode, whatever follows it; the wire
opcode's own meaning is the same. -/
def Obligations.UnknownOpcodeResult : Prop :=
  ∀ (s : State) (o : OpCode) (payload : List Byte), s.req.buf = frameLayout o payload → o ≠ Config.opTodData →
    s.req.buf.length ≤ Config.maxBufLen →
    exec .frameDecode s = .next { s with rsp := { status := some 1, errRaw := some o }, cur := none } ∧
    exec (.anyOtherWireOpcode o) s =
      .next { s with rsp := { status := some 1, errRaw := some o }, cur := none }

/-- R143, R145: a frame of a TodData packet decodes to the packet; the wire opcode's own meaning is the same. -/
def Obligations.FrameDecodeResult : Prop :=
  ∀ (s : State) (v : TodPacket) (reserved trailing : List Byte), v.CountConsistent → reserved.length = 6 →
    s.req.buf = frameLayout Config.opTodData (payloadLayout v reserved ++ trailing) →
    s.req.buf.length ≤ Config.maxBufLen →
    exec .frameDecode s = .next { s with
      rsp := { status := some 0, opcode := some Config.opTodData, pkt := some (.packet (.todData v)) },
      cur := none } ∧
    exec .opTodData s = .next { s with
      rsp := { status := some 0, opcode := some Config.opTodData, pkt := some (.packet (.todData v)) },
      cur := none }

/-- R144: a payload's error passes through FRAME_DECODE unchanged, with counts relative to the payload. -/
def Obligations.FrameDecodePassesErrors : Prop :=
  ∀ (s u w : State) (payload : List Byte), s.req.buf = frameLayout Config.opTodData payload →
    s.req.buf.length ≤ Config.maxBufLen → u.req.buf = payload → exec .todDecode u = .next w →
    w.rsp.status ≠ some 0 →
    exec .frameDecode s = .next { s with rsp := w.rsp, cur := none } ∧
    exec .opTodData s = .next { s with rsp := w.rsp, cur := none }

/-- R145: on OK, `rsp_opcode` is the opcode read from the frame, which is the constant opcode of the packet's type. -/
def Obligations.ResponseOpcode : Prop :=
  ∀ s t : State, exec .frameDecode s = .next t → t.rsp.status = some 0 →
    t.rsp.opcode = some Config.opTodData ∧ ∃ payload, s.req.buf = frameLayout Config.opTodData payload

/-- R146, R149: the frame of a packet is the type's constant opcode, low byte first, and the payload. That no identifier
comes before it, and the version and uidCount as held, are the spec's decisions (D4, D6, D7; log entry 16, DEDUCED). -/
def Obligations.FrameEncodeResult : Prop :=
  ∀ (s : State) (v : TodPacket), s.req.pkt = .packet (.todData v) → v.WithinCapacity →
    exec .frameEncode s = .next { s with
      rsp := { status := some 0, buf := some (frameLayout Config.opTodData (payloadLayout v zeroReserved)) },
      cur := none }

/-- R148: the frame of a count-consistent packet decodes to exactly the packet. -/
def Obligations.FrameRoundTrip : Prop :=
  ∀ (s : State) (v : TodPacket), s.req.pkt = .packet (.todData v) → v.CountConsistent →
    ∃ t b, exec .frameEncode s = .next t ∧ t.rsp.buf = some b ∧
      ∀ u : State, u.req.buf = b →
        exec .frameDecode u = .next { u with
          rsp := { status := some 0, opcode := some Config.opTodData, pkt := some (.packet (.todData v)) },
          cur := none }

/-! The network address marshaller -/

/-- R101: four bytes in network order, or an error with both lengths. -/
def Obligations.Addr4FromBytesResult : Prop :=
  ∀ s : State, s.req.buf.length ≤ Config.maxBufLen →
    (∀ bits : BitVec 32, s.req.buf = rawLayout (.v4 bits) →
      exec .addr4FromBytes s =
        .next { s with rsp := { status := some 0, addr := some (.v4 bits) }, cur := none }) ∧
    (s.req.buf.length = 4 → ∃ bits : BitVec 32, s.req.buf = rawLayout (.v4 bits)) ∧
    (s.req.buf.length ≠ 4 → exec .addr4FromBytes s = .next { s with
      rsp := { status := some 4, errExpected := some 4, errActual := some s.req.buf.length }, cur := none })

/-- R102: sixteen bytes in network order, or an error with both lengths. -/
def Obligations.Addr6FromBytesResult : Prop :=
  ∀ s : State, s.req.buf.length ≤ Config.maxBufLen →
    (∀ bits : BitVec 128, s.req.buf = rawLayout (.v6 bits) →
      exec .addr6FromBytes s =
        .next { s with rsp := { status := some 0, addr := some (.v6 bits) }, cur := none }) ∧
    (s.req.buf.length = 16 → ∃ bits : BitVec 128, s.req.buf = rawLayout (.v6 bits)) ∧
    (s.req.buf.length ≠ 16 → exec .addr6FromBytes s = .next { s with
      rsp := { status := some 4, errExpected := some 16, errActual := some s.req.buf.length }, cur := none })

/-- R103: the raw bytes of an address. -/
def Obligations.AddrToBytesResult : Prop :=
  ∀ s : State, exec .addrToBytes s =
    .next { s with rsp := { status := some 0, buf := some (rawLayout s.req.addrA) }, cur := none }

/-- R104: raw bytes to an address and back, and an address to raw bytes and back. -/
def Obligations.RawRoundTrip : Prop :=
  (∀ (s t u : State) (i : Instr), i = .addr4FromBytes ∨ i = .addr6FromBytes → exec i s = .next t →
    t.rsp.addr = some u.req.addrA →
    exec .addrToBytes u = .next { u with rsp := { status := some 0, buf := some s.req.buf }, cur := none }) ∧
  (∀ (s t u : State), exec .addrToBytes s = .next t → t.rsp.buf = some u.req.buf →
    exec (match s.req.addrA with | .v4 _ => Instr.addr4FromBytes | .v6 _ => Instr.addr6FromBytes) u =
      .next { u with rsp := { status := some 0, addr := some s.req.addrA }, cur := none })

/-- R106, R107: equality is of the variant and the bit pattern. That the two variants never compare equal is the spec's
decision (D18; log entry 16, DEDUCED). -/
def Obligations.AddrEqResult : Prop :=
  ∀ s : State, ∃ b : Bool,
    exec .addrEq s = .next { s with rsp := { status := some 0, bool := some b }, cur := none } ∧
    (b = true ↔ (∃ x : BitVec 32, s.req.addrA = .v4 x ∧ s.req.addrB = .v4 x) ∨
      ∃ x : BitVec 128, s.req.addrA = .v6 x ∧ s.req.addrB = .v6 x)

/-- R108, R227: what PARSE4 accepts, and the text back where it rejects. -/
def Obligations.Addr4FromTextResult : Prop :=
  ∀ s : State, s.req.text.length ≤ Config.maxTextLen →
    (∀ bits, collab4.parse s.req.text = some bits → exec .addr4FromText s =
      .next { s with rsp := { status := some 0, addr := some (.v4 bits) }, cur := none }) ∧
    (collab4.parse s.req.text = none → exec .addr4FromText s =
      .next { s with rsp := { status := some 5, errText := some s.req.text }, cur := none })

/-- R109, R227: what PARSE6 accepts, and the text back where it rejects. -/
def Obligations.Addr6FromTextResult : Prop :=
  ∀ s : State, s.req.text.length ≤ Config.maxTextLen →
    (∀ bits, collab6.parse s.req.text = some bits → exec .addr6FromText s =
      .next { s with rsp := { status := some 0, addr := some (.v6 bits) }, cur := none }) ∧
    (collab6.parse s.req.text = none → exec .addr6FromText s =
      .next { s with rsp := { status := some 5, errText := some s.req.text }, cur := none })

/-- R111, R112 (c) and (d): texts every collaborator rejects. -/
def Obligations.TextsAlwaysRejected : Prop :=
  ∀ s : State, s.req.text.length ≤ Config.maxTextLen →
    ((∃ c ∈ s.req.text, c.toNat < 0x21 ∨ 0x7E < c.toNat) → ∀ i, i = .addr4FromText ∨ i = .addr6FromText →
      exec i s = .next { s with rsp := { status := some 5, errText := some s.req.text }, cur := none }) ∧
    (chColon ∈ s.req.text → exec .addr4FromText s =
      .next { s with rsp := { status := some 5, errText := some s.req.text }, cur := none }) ∧
    (chColon ∉ s.req.text → exec .addr6FromText s =
      .next { s with rsp := { status := some 5, errText := some s.req.text }, cur := none })

/-- R110, R114: an IPv4 address is written as its four bytes in decimal, joined by '.'. -/
def Obligations.AddrToTextIPv4 : Prop :=
  ∀ (s : State) (bits : BitVec 32), s.req.addrA = .v4 bits →
    ∃ a b c d : Text, IsDecimalOf a (byteAt bits 3).toNat ∧ IsDecimalOf b (byteAt bits 2).toNat ∧
      IsDecimalOf c (byteAt bits 1).toNat ∧ IsDecimalOf d (byteAt bits 0).toNat ∧
      exec .addrToText s = .next { s with
        rsp := { status := some 0, text := some (a ++ chDot :: (b ++ chDot :: (c ++ chDot :: d))) }, cur := none }

/-- R110, R111, R112 (b): an address is written as a non-empty printable text that fits; for an IPv6 address it is
RENDER6's. -/
def Obligations.AddrToTextFits : Prop :=
  ∀ s : State, ∃ x : Text, exec .addrToText s =
      .next { s with rsp := { status := some 0, text := some x }, cur := none } ∧
    x ≠ [] ∧ x.length ≤ Config.maxTextLen ∧ (∀ c ∈ x, 0x21 ≤ c.toNat ∧ c.toNat ≤ 0x7E) ∧
    ∀ bits : BitVec 128, s.req.addrA = .v6 bits → x = collab6.render bits

/-- R113: the text of an address parses back to the address. -/
def Obligations.TextRoundTrip : Prop :=
  ∀ (s t u : State), exec .addrToText s = .next t → t.rsp.text = some u.req.text →
    exec (match s.req.addrA with | .v4 _ => Instr.addr4FromText | .v6 _ => Instr.addr6FromText) u =
      .next { u with rsp := { status := some 0, addr := some s.req.addrA }, cur := none }

/-! The scalar wrapper types -/

/-- R203: the text of a UidTotal is a hexadecimal text of its raw value, the same for the same value and another for
another. -/
def Obligations.UidTotalTextResult : Prop :=
  ∃ render : UidTotal → Text,
    (∀ s : State, exec .uidTotalToText s =
      .next { s with rsp := { status := some 0, text := some (render s.req.u16) }, cur := none }) ∧
    (∀ u, hexTextValue (render u) = some u.raw.toNat) ∧
    (∀ u v, render u = render v → u = v)

/-- R206: the two command bytes; and, by R207, what each raw byte gives. -/
def Obligations.CommandBytes : Prop :=
  cmdToByte .fullTod = 0x00 ∧ cmdToByte .nak = 0xFF ∧
  ∀ c : Byte, (c = 0x00 → cmdFromByte c = .ok .fullTod) ∧ (c = 0xFF → cmdFromByte c = .ok .nak) ∧
    (c ≠ 0x00 → c ≠ 0xFF → cmdFromByte c = .error (.invalidEnumValue .command c))

/-- R207 (derived by the spec): the command bytes convert back and forth. -/
def Obligations.CommandRoundTrip : Prop :=
  (∀ k, cmdFromByte (cmdToByte k) = .ok k) ∧ ∀ c k, cmdFromByte c = .ok k → cmdToByte k = c

/-- R211: the Port-Address is net's low 7 bits above the address byte. -/
def Obligations.PortAddressView : Prop :=
  ∀ v : TodPacket, (portAddress v).toNat = v.net.toNat % 128 * 256 + v.address.toNat

/-- R209, R25: a version left out is 14, one given is kept, and reserved bytes make no difference. -/
def Obligations.ConstructionDefaults : Prop :=
  ∀ a : TodArgs, (a.protocolVersion = none → (constructTod a).protocolVersion = 14) ∧
    (∀ v, a.protocolVersion = some v → (constructTod a).protocolVersion = v) ∧
    (∀ r, constructTod { a with reserved := r } = constructTod a)
end

