-- ==== Sys2Proof/Laws/Bytes.lean ====
section
/-! SUPPORT. Byte order both ways (R9) and the buffer primitives (R10, R52, R53). -/

namespace Sys2Proof.Machine

/-- An append write appends (R53). -/
@[simp] theorem wr_eq_append (out v : List Byte) : wr out v = out ++ v := by
  simp [wr, memWrite]

theorem memRead_length {buf : List Byte} {addr n : Nat} (h : addr + n ≤ buf.length) :
    (memRead buf addr n).length = n := by
  simp [memRead]; omega

@[simp] theorem toBe_length (n : Nat) {w : Nat} (v : BitVec w) : (toBe n v).length = n := by
  simp [toBe, digitsBE_length]

@[simp] theorem toLe16_length (v : BitVec 16) : (toLe16 v).length = 2 := rfl

theorem map_toNat_ofNat {ds : List Nat} (h : ∀ d ∈ ds, d < 256) :
    (ds.map (BitVec.ofNat 8)).map BitVec.toNat = ds := by
  rw [List.map_map]
  refine (List.map_congr_left fun d hd => ?_).trans (List.map_id ds)
  simpa using h d hd

/-- Reading back big-endian bytes gives the value (R9). -/
theorem beN_toBe {n w : Nat} (v : BitVec w) (h : w = 8 * n) : beN w (toBe n v) = v := by
  subst h
  rw [beN, toBe, map_toNat_ofNat (digitsBE_lt (by decide) n _), valueBE_digitsBE,
    show (256 : Nat) ^ n = 2 ^ (8 * n) by rw [Nat.pow_mul], Nat.mod_eq_of_lt v.isLt]
  simp

theorem valueBE_lt {b : Nat} : ∀ {ds : List Nat}, (∀ d ∈ ds, d < b) → valueBE b ds < b ^ ds.length
  | [], _ => by simp [valueBE]
  | d :: ds, h => by
    have h1 := h d (by simp)
    have h2 := valueBE_lt fun x hx => h x (List.mem_cons_of_mem _ hx)
    rw [valueBE, List.length_cons, Nat.pow_succ]
    calc d * b ^ ds.length + valueBE b ds < d * b ^ ds.length + b ^ ds.length := by omega
      _ = (d + 1) * b ^ ds.length := by rw [Nat.add_mul, Nat.one_mul]
      _ ≤ b * b ^ ds.length := Nat.mul_le_mul_right _ h1
      _ = b ^ ds.length * b := Nat.mul_comm _ _

theorem digitsBE_valueBE {b : Nat} : ∀ {ds : List Nat} (k : Nat), (∀ d ∈ ds, d < b) →
    digitsBE b ds.length (k * b ^ ds.length + valueBE b ds) = ds
  | [], _, _ => rfl
  | d :: ds, k, h => by
    have hd := h d (by simp)
    have hs : ∀ x ∈ ds, x < b := fun x hx => h x (List.mem_cons_of_mem _ hx)
    have hv := valueBE_lt hs
    have hp : 0 < b ^ ds.length := Nat.pow_pos (by omega)
    have e : k * b ^ (d :: ds).length + valueBE b (d :: ds) = (k * b + d) * b ^ ds.length + valueBE b ds := by
      rw [valueBE, List.length_cons, Nat.pow_succ]; ring
    rw [e, List.length_cons, digitsBE, digitsBE_valueBE _ hs,
      Nat.mul_comm (k * b + d), Nat.mul_add_div hp, Nat.div_eq_of_lt hv, Nat.add_zero, Nat.mul_comm k,
      Nat.mul_add_mod, Nat.mod_eq_of_lt hd]

/-- Writing back what big-endian bytes denote gives the bytes (R9). -/
theorem toBe_beN {n w : Nat} {bs : List Byte} (hl : bs.length = n) (h : w = 8 * n) : toBe n (beN w bs) = bs := by
  subst h hl
  have hb : ∀ d ∈ bs.map BitVec.toNat, d < 256 := by
    intro d hd
    obtain ⟨x, _, rfl⟩ := List.mem_map.1 hd
    exact x.isLt
  have hv := valueBE_lt hb
  have hd := digitsBE_valueBE 0 hb
  rw [List.length_map] at hv hd
  rw [toBe, beN, BitVec.toNat_ofNat, show 2 ^ (8 * bs.length) = 256 ^ bs.length by rw [Nat.pow_mul],
    Nat.mod_eq_of_lt hv, ← Nat.zero_add (valueBE _ _), ← Nat.zero_mul (256 ^ bs.length), hd, List.map_map]
  exact (List.map_congr_left fun b _ => by simp).trans (List.map_id bs)

/-- The OpCode bytes, low byte first, denote the OpCode (R54). -/
theorem le16_toLe16 (v : BitVec 16) :
    le16 (BitVec.ofNat 8 (v.toNat % 256)) (BitVec.ofNat 8 (v.toNat / 256)) = v := by
  have := v.isLt
  refine BitVec.eq_of_toNat_eq ?_
  simp only [le16, BitVec.toNat_ofNat]
  omega

/-- The OpCode of two bytes is written back as the two bytes (R54). -/
theorem toLe16_le16 (lo hi : Byte) : toLe16 (le16 lo hi) = [lo, hi] := by
  have h1 := lo.isLt
  have h2 := hi.isLt
  have e : (le16 lo hi).toNat = lo.toNat + 256 * hi.toNat := by
    simp only [le16, BitVec.toNat_ofNat]; omega
  simp only [toLe16, e, List.cons.injEq, and_true]
  constructor <;> refine BitVec.eq_of_toNat_eq ?_ <;> simp only [BitVec.toNat_ofNat] <;> omega

end Sys2Proof.Machine
end

