-- ==== Sys2Proof/Laws/State.lean ====
section
/-! SUPPORT. One lemma per field per update of the state, all true by rfl, so that no proof unfolds an update. -/

namespace Sys2Proof.Machine

@[simp] theorem respond_req (r : Response) (s : State) : (s.respond r).req = s.req := rfl
@[simp] theorem respond_rsp (r : Response) (s : State) : (s.respond r).rsp = r := rfl
@[simp] theorem respond_cur (r : Response) (s : State) : (s.respond r).cur = none := rfl
@[simp] theorem respond_requester (r : Response) (s : State) : (s.respond r).requester = s.requester := rfl
@[simp] theorem respond_lastRead (r : Response) (s : State) : (s.respond r).lastRead = s.lastRead := rfl

@[simp] theorem raise_req (e : BlockError) (s : State) : (raise e s).req = s.req := rfl
@[simp] theorem raise_rsp (e : BlockError) (s : State) : (raise e s).rsp = errorResponse e := rfl
@[simp] theorem raise_cur (e : BlockError) (s : State) : (raise e s).cur = none := rfl
@[simp] theorem raise_requester (e : BlockError) (s : State) : (raise e s).requester = s.requester := rfl
@[simp] theorem raise_lastRead (e : BlockError) (s : State) : (raise e s).lastRead = s.lastRead := rfl

@[simp] theorem done_req (o : Output) (s : State) : (done o s).req = s.req := rfl
@[simp] theorem done_rsp (o : Output) (s : State) : (done o s).rsp = okResponse o := rfl
@[simp] theorem done_cur (o : Output) (s : State) : (done o s).cur = none := rfl
@[simp] theorem done_requester (o : Output) (s : State) : (done o s).requester = s.requester := rfl
@[simp] theorem done_lastRead (o : Output) (s : State) : (done o s).lastRead = s.lastRead := rfl

/-- The response an operation's end writes. -/
def endResponse : Except BlockError Output → Response
  | .ok o => okResponse o
  | .error e => errorResponse e

@[simp] theorem endResponse_ok (o : Output) : endResponse (.ok o) = okResponse o := rfl
@[simp] theorem endResponse_error (e : BlockError) : endResponse (.error e) = errorResponse e := rfl

/-- However an operation ends, it is one write of the response registers. -/
theorem complete_eq_respond (r : Except BlockError Output) (s : State) :
    complete r s = s.respond (endResponse r) := by
  cases r <;> rfl

@[simp] theorem complete_ok (o : Output) (s : State) : complete (.ok o) s = done o s := rfl
@[simp] theorem complete_error (e : BlockError) (s : State) : complete (.error e) s = raise e s := rfl
@[simp] theorem complete_req (r : Except BlockError Output) (s : State) : (complete r s).req = s.req := by
  cases r <;> rfl
@[simp] theorem complete_rsp (r : Except BlockError Output) (s : State) : (complete r s).rsp = endResponse r := by
  cases r <;> rfl
@[simp] theorem complete_cur (r : Except BlockError Output) (s : State) : (complete r s).cur = none := by
  cases r <;> rfl
@[simp] theorem complete_requester (r : Except BlockError Output) (s : State) :
    (complete r s).requester = s.requester := by
  cases r <;> rfl
@[simp] theorem complete_lastRead (r : Except BlockError Output) (s : State) :
    (complete r s).lastRead = s.lastRead := by
  cases r <;> rfl

@[simp] theorem write_op (v : BitVec 4) (q : Request) : q.write (.op v) = { q with op := v } := rfl
@[simp] theorem write_buf (v : List Byte) (q : Request) : q.write (.buf v) = { q with buf := v } := rfl
@[simp] theorem write_pkt (v : PktReg) (q : Request) : q.write (.pkt v) = { q with pkt := v } := rfl
@[simp] theorem write_addrA (v : NetAddr) (q : Request) : q.write (.addrA v) = { q with addrA := v } := rfl
@[simp] theorem write_addrB (v : NetAddr) (q : Request) : q.write (.addrB v) = { q with addrB := v } := rfl
@[simp] theorem write_text (v : Text) (q : Request) : q.write (.text v) = { q with text := v } := rfl
@[simp] theorem write_u16 (v : UidTotal) (q : Request) : q.write (.u16 v) = { q with u16 := v } := rfl

@[simp] theorem okResponse_frame (o : OpCode) (v : PacketValue) :
    okResponse (.frame o v) = { status := some 0, opcode := some o, pkt := some (.packet v) } := rfl
@[simp] theorem okResponse_tod (p : TodPacket) :
    okResponse (.tod p) = { status := some 0, pkt := some (.tod p) } := rfl
@[simp] theorem okResponse_bytes (b : List Byte) :
    okResponse (.bytes b) = { status := some 0, buf := some b } := rfl
@[simp] theorem okResponse_addr (a : NetAddr) : okResponse (.addr a) = { status := some 0, addr := some a } := rfl
@[simp] theorem okResponse_text (t : Text) : okResponse (.text t) = { status := some 0, text := some t } := rfl
@[simp] theorem okResponse_bool (b : Bool) : okResponse (.bool b) = { status := some 0, bool := some b } := rfl

@[simp] theorem errorResponse_unknownOpCode (o : OpCode) :
    errorResponse (.unknownOpCode o) = { status := some 1, errRaw := some o } := rfl
@[simp] theorem errorResponse_truncatedBuffer (e a : Nat) :
    errorResponse (.truncatedBuffer e a) = { status := some 2, errExpected := some e, errActual := some a } := rfl
@[simp] theorem errorResponse_invalidEnumValue (f : FieldName) (c : Byte) :
    errorResponse (.invalidEnumValue f c) =
      { status := some 3, errField := some f, errRaw := some (c.setWidth 16) } := rfl
@[simp] theorem errorResponse_invalidAddressLength (e a : Nat) :
    errorResponse (.invalidAddressLength e a) =
      { status := some 4, errExpected := some e, errActual := some a } := rfl
@[simp] theorem errorResponse_invalidAddressText (t : Text) :
    errorResponse (.invalidAddressText t) = { status := some 5, errText := some t } := rfl

end Sys2Proof.Machine
end

