-- ==== Sys2Proof/Laws/Ops.lean ====
section
/-! SUPPORT. What each shared operation can do, said once: the guarded reads (R52), the lookup (R141), the operand
reads with their refusals (R240), and the requester's reads (R256). -/

namespace Sys2Proof.Machine

/-- A guarded read answers the next `w` bytes and advances, where they are there. -/
theorem rd_ok {w cur : Nat} {inp : List Byte} (h : cur + w ≤ inp.length) :
    rd w ⟨inp, cur⟩ = .ok (memRead inp cur w, ⟨inp, cur + w⟩) :=
  if_neg (Nat.not_lt.2 h)

/-- A guarded read fails with the length it needed and the length there is, where they are not. -/
theorem rd_error {w cur : Nat} {inp : List Byte} (h : inp.length < cur + w) :
    rd w ⟨inp, cur⟩ = .error (.truncatedBuffer (cur + w) inp.length) :=
  if_pos h

theorem rdBe_ok {n w cur : Nat} {inp : List Byte} (h : cur + w ≤ inp.length) :
    rdBe n w ⟨inp, cur⟩ = .ok (beN n (memRead inp cur w), ⟨inp, cur + w⟩) := by
  rw [rdBe, rd_ok h]; rfl

theorem rdBe_error {n w cur : Nat} {inp : List Byte} (h : inp.length < cur + w) :
    rdBe n w ⟨inp, cur⟩ = .error (.truncatedBuffer (cur + w) inp.length) := by
  rw [rdBe, rd_error h]; rfl

theorem rdByte_ok {cur : Nat} {inp : List Byte} (h : cur + 1 ≤ inp.length) :
    rdByte ⟨inp, cur⟩ = .ok ((memRead inp cur 1).headD 0, ⟨inp, cur + 1⟩) := by
  rw [rdByte, rd_ok h]; rfl

theorem rdByte_error {cur : Nat} {inp : List Byte} (h : inp.length < cur + 1) :
    rdByte ⟨inp, cur⟩ = .error (.truncatedBuffer (cur + 1) inp.length) := by
  rw [rdByte, rd_error h]; rfl

/-- The lookup (R141): one entry. -/
theorem lookup_eq (o : OpCode) : lookup o = if o = Config.opTodData then .tod else .none := by
  by_cases h : o = Config.opTodData
  · subst h; rfl
  · have hb : (Config.opTodData == o) = false := by simpa using fun e => h e.symm
    simp [lookup, Config.dispatch, hb, h]

theorem bufFits_iff {n : Nat} : bufFits n = true ↔ n ≤ Config.maxBufLen := by
  simp only [bufFits, Bool.or_eq_true, Nat.ble_eq, Config.maxBufLen]
  omega

theorem textFits_iff {n : Nat} : textFits n = true ↔ n ≤ Config.maxTextLen := by
  simp only [textFits, Bool.or_eq_true, Nat.ble_eq, Config.maxTextLen]
  omega

theorem withBuf_next {s : State} {f : List Byte → State} (h : s.req.buf.length ≤ Config.maxBufLen) :
    withBuf s f = .next (f s.req.buf) :=
  if_pos (bufFits_iff.2 h)

theorem withBuf_refused {s : State} {f : List Byte → State} (h : Config.maxBufLen < s.req.buf.length) :
    withBuf s f = .refused (.bufferTooLong s.req.buf.length) :=
  if_neg fun hf => absurd (bufFits_iff.1 hf) (Nat.not_le.2 h)

theorem withBuf_eq_next {s t : State} {f : List Byte → State} (h : withBuf s f = .next t) :
    s.req.buf.length ≤ Config.maxBufLen ∧ t = f s.req.buf := by
  unfold withBuf at h
  split at h
  · rename_i hf
    exact ⟨bufFits_iff.1 hf, (Host.Outcome.next.inj h).symm⟩
  · cases h

theorem withText_next {s : State} {f : Text → State} (h : s.req.text.length ≤ Config.maxTextLen) :
    withText s f = .next (f s.req.text) :=
  if_pos (textFits_iff.2 h)

theorem withText_refused {s : State} {f : Text → State} (h : Config.maxTextLen < s.req.text.length) :
    withText s f = .refused (.textTooLong s.req.text.length) :=
  if_neg fun hf => absurd (textFits_iff.1 hf) (Nat.not_le.2 h)

theorem withText_eq_next {s t : State} {f : Text → State} (h : withText s f = .next t) :
    s.req.text.length ≤ Config.maxTextLen ∧ t = f s.req.text := by
  unfold withText at h
  split at h
  · rename_i hf
    exact ⟨textFits_iff.1 hf, (Host.Outcome.next.inj h).symm⟩
  · cases h

theorem fits_iff {p : TodPacket} : p.fits = true ↔ p.tod.length ≤ Config.todMax := by
  simp [TodPacket.fits]

theorem withPacketValue_next {s : State} {f : PacketValue → State} {p : TodPacket}
    (h : s.req.pkt = .packet (.todData p)) (hp : p.tod.length ≤ Config.todMax) :
    withPacketValue s f = .next (f (.todData p)) := by
  simp [withPacketValue, h, fits_iff.2 hp]

theorem withPacketValue_eq_next {s t : State} {f : PacketValue → State} (h : withPacketValue s f = .next t) :
    ∃ p, s.req.pkt = .packet (.todData p) ∧ p.tod.length ≤ Config.todMax ∧ t = f (.todData p) := by
  unfold withPacketValue at h
  split at h
  · rename_i p hp
    split at h
    · rename_i hf
      exact ⟨p, hp, fits_iff.1 hf, (Host.Outcome.next.inj h).symm⟩
    · cases h
  · cases h

theorem withTodPacket_next {s : State} {f : TodPacket → State} {p : TodPacket}
    (h : s.req.pkt = .tod p) (hp : p.tod.length ≤ Config.todMax) :
    withTodPacket s f = .next (f p) := by
  simp [withTodPacket, h, fits_iff.2 hp]

theorem withTodPacket_eq_next {s t : State} {f : TodPacket → State} (h : withTodPacket s f = .next t) :
    ∃ p, s.req.pkt = .tod p ∧ p.tod.length ≤ Config.todMax ∧ t = f p := by
  unfold withTodPacket at h
  split at h
  · rename_i p hp
    split at h
    · rename_i hf
      exact ⟨p, hp, fits_iff.1 hf, (Host.Outcome.next.inj h).symm⟩
    · cases h
  · cases h

/-- A read of a register that holds no value faults. -/
theorem readRsp_noValue {r : RspReg} {p : Response} (h : p.value r = none) : readRsp r p = .error (.noValue r) := by
  simp [readRsp, h]

/-- A read of a register that holds a value gives it, but for a status code the block never produces. -/
theorem readRsp_value {r : RspReg} {p : Response} {v : RspValue} (h : p.value r = some v)
    (hs : ∀ c, v = .status c → c.toNat ≤ 5) : readRsp r p = .ok v := by
  cases v <;> simp_all [readRsp]

/-- The requester's write changes `req` and nothing else. -/
theorem actWrite_eq (w : ReqWrite) (s : State) : actWrite w s = .next { s with req := s.req.write w } := rfl

/-- The requester's read answers a next state only in `lastRead`. -/
theorem actRead_eq_next {r : RspReg} {s t : State} (h : actRead r s = .next t) :
    ∃ v, readRsp r s.rsp = .ok v ∧ t = { s with lastRead := some v } := by
  unfold actRead at h
  split at h
  · rename_i v hv
    exact ⟨v, hv, (Host.Outcome.next.inj h).symm⟩
  · cases h

end Sys2Proof.Machine
end

