-- ==== Sys2Proof/Laws/Tod.lean ====
section
/-! SUPPORT. The payload codec in closed form: what TOD_DECODE does once the 18 header bytes are there (R160), what the
UID list reads (R167), and the bytes TOD_ENCODE writes (R169). -/

namespace Sys2Proof.Machine

/-- UID `k` of a buffer from offset `cur` on (R167). -/
def uidAt (inp : List Byte) (cur k : Nat) : Uid := beN 48 (memRead inp (cur + 6 * k) 6)

/-- All UIDs are there: they are read in order, and the cursor stands behind the last. -/
theorem rdUids_ok {n cur : Nat} {inp : List Byte} (h : cur + 6 * n ≤ inp.length) :
    rdUids n ⟨inp, cur⟩ = .ok ((List.range n).map (uidAt inp cur), ⟨inp, cur + 6 * n⟩) := by
  induction n generalizing cur with
  | zero => rfl
  | succ n ih =>
    have e : (uidAt inp (cur + 6)) = uidAt inp cur ∘ Nat.succ := by
      funext k; simp only [uidAt, Function.comp]; congr 2; omega
    rw [rdUids, rdBe_ok (by omega)]
    simp only [bind, Except.bind, pure, Except.pure, ih (cur := cur + 6) (by omega), List.range_succ_eq_map,
      List.map_cons, List.map_map, e]
    congr 3
    omega

/-- A UID is missing: the read fails at the first one that is (R167). -/
theorem rdUids_error {n cur : Nat} {inp : List Byte} (hc : cur ≤ inp.length) (h : inp.length < cur + 6 * n) :
    rdUids n ⟨inp, cur⟩ =
      .error (.truncatedBuffer (cur + 6 * ((inp.length - cur) / 6 + 1)) inp.length) := by
  induction n generalizing cur with
  | zero => omega
  | succ n ih =>
    rw [rdUids]
    by_cases h6 : cur + 6 ≤ inp.length
    · rw [rdBe_ok h6]
      simp only [bind, Except.bind, ih (cur := cur + 6) h6 (by omega)]
      congr 2
      omega
    · rw [rdBe_error (by omega), show (inp.length - cur) / 6 = 0 by omega]
      rfl

/-- The decode once the header is there (R160): the command byte is checked, then the UIDs are read. -/
theorem todDecode_header (b0 b1 b2 b3 r4 r5 r6 r7 r8 r9 b10 b11 b12 b13 b14 b15 b16 b17 : Byte) (rest : List Byte) :
    todDecode (b0 :: b1 :: b2 :: b3 :: r4 :: r5 :: r6 :: r7 :: r8 :: r9 :: b10 :: b11 :: b12 :: b13 :: b14 :: b15 ::
        b16 :: b17 :: rest) =
      (cmdFromByte b12).bind fun command =>
        (rdUids b17.toNat ⟨b0 :: b1 :: b2 :: b3 :: r4 :: r5 :: r6 :: r7 :: r8 :: r9 :: b10 :: b11 :: b12 :: b13 ::
          b14 :: b15 :: b16 :: b17 :: rest, 18⟩).map fun r =>
          { protocolVersion := beN 16 [b0, b1], rdmVersion := b2, port := b3, bindingIndex := b10, net := b11,
            command := command, address := b13, uidTotal := ⟨beN 16 [b14, b15]⟩, blockCount := b16,
            uidCount := b17, tod := r.1 } := by
  simp [todDecode, Cursor.start, rdBe, rdByte, rd, memRead, bind, Except.bind, Except.map, pure, Except.pure]
  rfl

/-- Every step of the UID list appends its block (R169). -/
theorem wrUids_eq (out : List Byte) (tod : List Uid) : wrUids out tod = out ++ tod.flatMap (toBe 6) := by
  simp [wrUids, List.flatMap]

/-- The bytes TOD_ENCODE writes (R169). -/
theorem todEncode_eq (v : TodPacket) :
    todEncode v = toBe 2 v.protocolVersion ++ [v.rdmVersion, v.port, 0, 0, 0, 0, 0, 0, v.bindingIndex, v.net,
      cmdToByte v.command, v.address] ++ toBe 2 v.uidTotal.raw ++ [v.blockCount, v.uidCount] ++
      v.tod.flatMap (toBe 6) := by
  simp [todEncode, wrUids_eq]

/-- The bytes FRAME_ENCODE writes (R146). -/
theorem frameEncode_eq (p : TodPacket) :
    frameEncode (.todData p) = toLe16 Config.opTodData ++ todEncode p := by
  simp [frameEncode]

/-- The decode of a frame that holds an OpCode (R143). -/
theorem frameDecode_cons (lo hi : Byte) (payload : List Byte) :
    frameDecode (lo :: hi :: payload) =
      if le16 lo hi = Config.opTodData then frameTod Config.opTodData payload
      else .error (.unknownOpCode (le16 lo hi)) := by
  have hrd : rd 2 (Cursor.start (lo :: hi :: payload)) = .ok ([lo, hi], ⟨lo :: hi :: payload, 2⟩) := by
    rw [Cursor.start, rd_ok (by simp)]; rfl
  simp only [frameDecode, hrd, bind, Except.bind, List.getD_cons_zero, List.getD_cons_succ, lookup_eq]
  split <;> simp_all

/-- The decode of a frame too short for the OpCode (R143). -/
theorem frameDecode_short {frame : List Byte} (h : frame.length < 2) :
    frameDecode frame = .error (.truncatedBuffer 2 frame.length) := by
  simp only [frameDecode, Cursor.start, rd_error (cur := 0) (w := 2) (by omega : frame.length < 0 + 2), bind,
    Except.bind]

end Sys2Proof.Machine
end

