-- ==== Sys2Proof/Laws/Exec.lean ====
section
/-! SUPPORT. What any operation can do, said once: it is refused, or it ends in one write of the response registers
(R226, R34); what any step can do; and the laws of the free collaborators as equations. -/

namespace Sys2Proof.Machine

/-! Each operation over the shared ones. -/

theorem exec_frameDecode (s : State) :
    exec .frameDecode s = withBuf s fun b => complete (frameDecode b) s := rfl
theorem exec_frameEncode (s : State) :
    exec .frameEncode s = withPacketValue s fun v => done (.bytes (frameEncode v)) s := rfl
theorem exec_todDecode (s : State) :
    exec .todDecode s = withBuf s fun b => complete ((todDecode b).map .tod) s := rfl
theorem exec_todEncode (s : State) :
    exec .todEncode s = withTodPacket s fun p => done (.bytes (todEncode p)) s := rfl
theorem exec_addr4FromBytes (s : State) :
    exec .addr4FromBytes s = withBuf s fun b => complete (addrFromBytes 4 (fun b => .v4 (beN 32 b)) b) s := rfl
theorem exec_addr6FromBytes (s : State) :
    exec .addr6FromBytes s = withBuf s fun b => complete (addrFromBytes 16 (fun b => .v6 (beN 128 b)) b) s := rfl
theorem exec_addr4FromText (s : State) :
    exec .addr4FromText s = withText s fun t => complete (addrFromText t ((collab4.parse t).map .v4)) s := rfl
theorem exec_addr6FromText (s : State) :
    exec .addr6FromText s = withText s fun t => complete (addrFromText t ((collab6.parse t).map .v6)) s := rfl
theorem exec_addrToBytes (s : State) :
    exec .addrToBytes s = .next (done (.bytes (addrToBytes s.req.addrA)) s) := rfl
theorem exec_addrToText (s : State) :
    exec .addrToText s = .next (done (.text (addrToText s.req.addrA)) s) := rfl
theorem exec_addrEq (s : State) :
    exec .addrEq s = .next (done (.bool (addrEq s.req.addrA s.req.addrB)) s) := rfl
theorem exec_uidTotalToText (s : State) :
    exec .uidTotalToText s = .next (done (.text (hexRenderer.render s.req.u16.raw)) s) := rfl
theorem exec_reserved0 (s : State) : exec .reserved0 s = .refused (.reservedOpSelect 0x0) := rfl
theorem exec_reservedD (s : State) : exec .reservedD s = .refused (.reservedOpSelect 0xD) := rfl
theorem exec_reservedE (s : State) : exec .reservedE s = .refused (.reservedOpSelect 0xE) := rfl
theorem exec_reservedF (s : State) : exec .reservedF s = .refused (.reservedOpSelect 0xF) := rfl
theorem exec_opTodData (s : State) :
    exec .opTodData s = withBuf s fun b => complete (frameTod Config.opTodData (b.drop 2)) s := rfl
theorem exec_anyOtherWireOpcode (raw : OpCode) (s : State) :
    exec (.anyOtherWireOpcode raw) s = withBuf s fun _ => raise (.unknownOpCode raw) s := rfl

/-- An operation that answers a next state ends in `done` or in `raise`, on the state it was issued in. -/
theorem exec_eq_next {i : Instr} {s t : State} (h : exec i s = .next t) :
    ∃ r : Except BlockError Output, t = complete r s := by
  cases i <;> simp only [exec] at h
  case frameDecode => exact ⟨_, (withBuf_eq_next h).2⟩
  case frameEncode => obtain ⟨p, _, _, ht⟩ := withPacketValue_eq_next h; exact ⟨.ok _, ht⟩
  case todDecode => exact ⟨_, (withBuf_eq_next h).2⟩
  case todEncode => obtain ⟨p, _, _, ht⟩ := withTodPacket_eq_next h; exact ⟨.ok _, ht⟩
  case addr4FromBytes => exact ⟨_, (withBuf_eq_next h).2⟩
  case addr6FromBytes => exact ⟨_, (withBuf_eq_next h).2⟩
  case addr4FromText => exact ⟨_, (withText_eq_next h).2⟩
  case addr6FromText => exact ⟨_, (withText_eq_next h).2⟩
  case addrToBytes => exact ⟨.ok _, (Host.Outcome.next.inj h).symm⟩
  case addrToText => exact ⟨.ok _, (Host.Outcome.next.inj h).symm⟩
  case addrEq => exact ⟨.ok _, (Host.Outcome.next.inj h).symm⟩
  case uidTotalToText => exact ⟨.ok _, (Host.Outcome.next.inj h).symm⟩
  case opTodData => exact ⟨_, (withBuf_eq_next h).2⟩
  case anyOtherWireOpcode raw => exact ⟨.error _, (withBuf_eq_next h).2⟩
  all_goals cases h

/-- What a step that answers a next state was: the block waiting, a write, a read, or a completed request. -/
theorem step_eq_next {s t : State} (h : step s = .next t) :
    (s.requester = [] ∧ t = s) ∨
    (∃ w rest, s.requester = .write w :: rest ∧ t = { s with req := s.req.write w, requester := rest }) ∨
    (∃ r rest v, s.requester = .read r :: rest ∧ readRsp r s.rsp = .ok v ∧
      t = { s with requester := rest, lastRead := some v }) ∨
    (∃ rest, s.requester = .issue :: rest ∧ exec (selected s) { s with requester := rest } = .next t) := by
  unfold step at h
  split at h
  · rename_i hq
    exact .inl ⟨hq, (Host.Outcome.next.inj h).symm⟩
  · rename_i w rest hq
    exact .inr (.inl ⟨w, rest, hq, (Host.Outcome.next.inj h).symm⟩)
  · rename_i r rest hq
    obtain ⟨v, hv, ht⟩ := actRead_eq_next h
    exact .inr (.inr (.inl ⟨r, rest, v, hq, hv, ht⟩))
  · rename_i rest hq
    exact .inr (.inr (.inr ⟨rest, hq, h⟩))

/-- Every instance admits a buffer of 1550 bytes (R7). -/
theorem le_maxBufLen {n : Nat} (h : n ≤ 1550) : n ≤ Config.maxBufLen :=
  Nat.le_trans h (Nat.le_add_right _ _)

/-- Every instance admits a text of 45 bytes (R7). -/
theorem le_maxTextLen {n : Nat} (h : n ≤ 45) : n ≤ Config.maxTextLen :=
  Nat.le_trans h (Nat.le_add_right _ _)

@[simp] theorem collab4_parse_render4 (b : BitVec 32) : collab4.parse (render4 b) = some b :=
  collab4.parseRender b

@[simp] theorem collab6_parse_render (b : BitVec 128) : collab6.parse (collab6.render b) = some b :=
  collab6.parseRender b

@[simp] theorem hexTextValue_render (raw : BitVec 16) : hexTextValue (hexRenderer.render raw) = some raw.toNat :=
  hexRenderer.value raw

end Sys2Proof.Machine
end

