-- ==== Sys2Proof/Laws/PerInstr.lean ====
section
/-! SUPPORT. A statement about every instruction as syntax, one lemma per constructor: the width of its encoding. -/

namespace Sys2Proof

/-- How many bytes an instruction of a format takes: the byte that holds a 4-bit op-select (R70), or the two bytes of an
OpCode (R74). -/
def Format.width : Format → Nat
  | .opSelect4 => 1
  | .wireOpcode16le => 2

/-- An encoding is as wide as its format. -/
def Laws.EncodingWidth.Statement (i : Instr) : Prop := (encode i).length = i.format.width

theorem Laws.EncodingWidth.frameDecode : Laws.EncodingWidth.Statement .frameDecode := rfl
theorem Laws.EncodingWidth.frameEncode : Laws.EncodingWidth.Statement .frameEncode := rfl
theorem Laws.EncodingWidth.todDecode : Laws.EncodingWidth.Statement .todDecode := rfl
theorem Laws.EncodingWidth.todEncode : Laws.EncodingWidth.Statement .todEncode := rfl
theorem Laws.EncodingWidth.addr4FromBytes : Laws.EncodingWidth.Statement .addr4FromBytes := rfl
theorem Laws.EncodingWidth.addr6FromBytes : Laws.EncodingWidth.Statement .addr6FromBytes := rfl
theorem Laws.EncodingWidth.addr4FromText : Laws.EncodingWidth.Statement .addr4FromText := rfl
theorem Laws.EncodingWidth.addr6FromText : Laws.EncodingWidth.Statement .addr6FromText := rfl
theorem Laws.EncodingWidth.addrToBytes : Laws.EncodingWidth.Statement .addrToBytes := rfl
theorem Laws.EncodingWidth.addrToText : Laws.EncodingWidth.Statement .addrToText := rfl
theorem Laws.EncodingWidth.addrEq : Laws.EncodingWidth.Statement .addrEq := rfl
theorem Laws.EncodingWidth.uidTotalToText : Laws.EncodingWidth.Statement .uidTotalToText := rfl
theorem Laws.EncodingWidth.reserved0 : Laws.EncodingWidth.Statement .reserved0 := rfl
theorem Laws.EncodingWidth.reservedD : Laws.EncodingWidth.Statement .reservedD := rfl
theorem Laws.EncodingWidth.reservedE : Laws.EncodingWidth.Statement .reservedE := rfl
theorem Laws.EncodingWidth.reservedF : Laws.EncodingWidth.Statement .reservedF := rfl
theorem Laws.EncodingWidth.opTodData : Laws.EncodingWidth.Statement .opTodData := rfl
theorem Laws.EncodingWidth.anyOtherWireOpcode (raw : OpCode) :
    Laws.EncodingWidth.Statement (.anyOtherWireOpcode raw) := rfl

end Sys2Proof
end

