-- ==== Sys2Proof/Tests/Slice0.lean ====
section
/-! SUPPORT. Tests whose expected results are the spec's own (95_test_vectors.md, named in each), and for every statement
that has hypotheses a witness that meets them. -/

namespace Sys2Proof.Tests
open Sys2Proof.Machine

/-! Helpers -/

/-- The end-to-end packet of the spec's section L1 (`P§8`). -/
def p8 : TodPacket := ⟨14, 1, 1, 1, 0, .fullTod, 0, ⟨2⟩, 0, 2, [0x0102030405AA, 0x0102030405BB]⟩

/-- Its 30-byte payload (`B§8`). -/
def b8 : List Byte :=
  [0x00, 0x0E, 0x01, 0x01, 0x00, 0x00, 0x00, 0x00, 0x00, 0x00, 0x01, 0x00, 0x00, 0x00, 0x00, 0x02, 0x00, 0x02,
    0x01, 0x02, 0x03, 0x04, 0x05, 0xAA, 0x01, 0x02, 0x03, 0x04, 0x05, 0xBB]

def onBuf (b : List Byte) : State := { State.reset with req := { Request.reset with buf := b } }
def onPkt (p : PktReg) : State := { State.reset with req := { Request.reset with pkt := p } }
def onAddr (a b : NetAddr) : State := { State.reset with req := { Request.reset with addrA := a, addrB := b } }
def onProgram (l : List RequesterAct) : State := { State.reset with requester := l }
def onText (t : Text) : State := { State.reset with req := { Request.reset with text := t } }

/-- The response after an operation, if it completes. -/
def rspOf (i : Instr) (s : State) : Option Response :=
  match exec i s with
  | .next t => some t.rsp
  | .fault _ => none
  | .refused _ => none

def truncated (e a : Nat) : Response := { status := some 2, errExpected := some e, errActual := some a }

/-! Decoding: words written out from R70 and R74 -/

theorem test_decode_frameDecode : decode .opSelect4 [0b0001] = .ok (.frameDecode, []) := by rfl
theorem test_decode_frameEncode : decode .opSelect4 [0b0010] = .ok (.frameEncode, []) := by rfl
theorem test_decode_todDecode : decode .opSelect4 [0b0011] = .ok (.todDecode, []) := by rfl
theorem test_decode_todEncode : decode .opSelect4 [0b0100] = .ok (.todEncode, []) := by rfl
theorem test_decode_addr4FromBytes : decode .opSelect4 [0b0101] = .ok (.addr4FromBytes, []) := by rfl
theorem test_decode_addr6FromBytes : decode .opSelect4 [0b0110] = .ok (.addr6FromBytes, []) := by rfl
theorem test_decode_addr4FromText : decode .opSelect4 [0b0111] = .ok (.addr4FromText, []) := by rfl
theorem test_decode_addr6FromText : decode .opSelect4 [0b1000] = .ok (.addr6FromText, []) := by rfl
theorem test_decode_addrToBytes : decode .opSelect4 [0b1001] = .ok (.addrToBytes, []) := by rfl
theorem test_decode_addrToText : decode .opSelect4 [0b1010] = .ok (.addrToText, []) := by rfl
theorem test_decode_addrEq : decode .opSelect4 [0b1011] = .ok (.addrEq, []) := by rfl
theorem test_decode_uidTotalToText : decode .opSelect4 [0b1100] = .ok (.uidTotalToText, []) := by rfl
theorem test_decode_reserved0 : decode .opSelect4 [0b0000] = .ok (.reserved0, []) := by rfl
theorem test_decode_reservedD : decode .opSelect4 [0b1101] = .ok (.reservedD, []) := by rfl
theorem test_decode_reservedE : decode .opSelect4 [0b1110] = .ok (.reservedE, []) := by rfl
theorem test_decode_reservedF : decode .opSelect4 [0b1111] = .ok (.reservedF, []) := by rfl
theorem test_decode_opTodData : decode .wireOpcode16le [0x00, 0x81, 0x07] = .ok (.opTodData, [0x07]) := by rfl
theorem test_decode_anyOther :
    decode .wireOpcode16le [0x81, 0x00] = .ok (.anyOtherWireOpcode 0x0081, []) := by rfl
theorem test_decode_tooWide : decode .opSelect4 [0x11] = .error .opSelectTooWide := by rfl
theorem test_decode_missing : decode .wireOpcode16le [0x00] = .error .missingOpCode := by rfl

/-- The one ill-formed term: OP_TODDATA is no unknown opcode (R74). -/
theorem test_wellFormed_refuses : (Instr.anyOtherWireOpcode 0x8100).wellFormed = false := by decide
theorem test_wellFormed_accepts : (Instr.anyOtherWireOpcode 0x0081).wellFormed = true := by decide

/-- Table words run as the first request after reset (R143, R142). -/
theorem test_tableWord_opTodData :
    step (State.reset.withFetchWord 16 0x8100) = exec .opTodData
      { State.reset.withFetchWord 16 0x8100 with requester := [] } := by rfl
theorem test_tableWord_todEncode :
    step (State.reset.withFetchWord 8 0x4) = exec .todEncode
      { State.reset.withFetchWord 8 0x4 with requester := [] } := by rfl

/-! TOD -/

/-- V-TOD-1. -/
theorem test_todEncode_p8 : rspOf .todEncode (onPkt (.tod p8)) = some { status := some 0, buf := some b8 } := by
  decide

/-- V-TOD-12, the encode: uidCount 1 and two entries are encoded as held. -/
theorem test_todEncode_countAsHeld :
    rspOf .todEncode (onPkt (.tod { p8 with uidCount := 1 })) =
      some { status := some 0, buf := some (b8.set 17 0x01) } := by decide

/-- V-TOD-11 and V-TOD-13: reserved and trailing bytes are ignored. -/
theorem test_todDecode_ignored :
    rspOf .todDecode (onBuf (b8.take 4 ++ [0xDE, 0xAD, 0xBE, 0xEF, 0x55, 0xAA] ++ b8.drop 10 ++ [0x99, 0x98])) =
      some { status := some 0, pkt := some (.tod p8) } := by decide

/-- V-TOD-3 to V-TOD-7, V-TOD-9b, V-TOD-10 and V-TOD-17: the first failing step decides. -/
theorem test_todDecode_errors :
    rspOf .todDecode (onBuf []) = some (truncated 2 0) ∧
    rspOf .todDecode (onBuf (List.replicate 7 0)) = some (truncated 10 7) ∧
    rspOf .todDecode (onBuf (List.replicate 12 0)) = some (truncated 13 12) ∧
    rspOf .todDecode (onBuf (List.replicate 17 0)) = some (truncated 18 17) ∧
    rspOf .todDecode (onBuf ((b8.set 12 0x01).take 13)) =
      some { status := some 3, errField := some .command, errRaw := some 0x0001 } ∧
    rspOf .todDecode (onBuf (b8.take 24)) = some (truncated 30 24) ∧
    rspOf .todDecode (onBuf ((b8.set 17 0xFF).take 18)) = some (truncated 24 18) := by decide

/-! FRAME -/

/-- V-FR-1. -/
theorem test_frameEncode_p8 : rspOf .frameEncode (onPkt (.packet (.todData p8))) =
    some { status := some 0, buf := some ([0x00, 0x81] ++ b8) } := by decide

/-- V-FR-2. -/
theorem test_frameDecode_p8 : rspOf .frameDecode (onBuf ([0x00, 0x81] ++ b8)) =
    some { status := some 0, opcode := some 0x8100, pkt := some (.packet (.todData p8)) } := by decide

/-- V-FR-4, V-FR-5, V-FR-6, V-FR-8, V-FR-10 and V-FR-11. -/
theorem test_frameDecode_errors :
    rspOf .frameDecode (onBuf [0x00]) = some (truncated 2 1) ∧
    rspOf .frameDecode (onBuf [0x00, 0x81]) = some (truncated 2 0) ∧
    rspOf .frameDecode (onBuf ([0x81, 0x00] ++ b8)) = some { status := some 1, errRaw := some 0x0081 } ∧
    rspOf .frameDecode (onBuf ([0x00, 0x81] ++ b8.set 12 0x01)) =
      some { status := some 3, errField := some .command, errRaw := some 0x0001 } ∧
    rspOf .frameDecode (onBuf ([0xFF, 0xFF] ++ List.replicate 40 0)) =
      some { status := some 1, errRaw := some 0xFFFF } ∧
    rspOf .frameDecode (onBuf ([0x00, 0x81] ++ List.replicate 17 0)) = some (truncated 18 17) := by decide

/-- V-FR-2 and V-FR-7 by their wire opcodes. -/
theorem test_wire_opcodes :
    rspOf .opTodData (onBuf ([0x00, 0x81] ++ b8)) =
      some { status := some 0, opcode := some 0x8100, pkt := some (.packet (.todData p8)) } ∧
    rspOf (.anyOtherWireOpcode 0x2000) (onBuf [0x00, 0x20]) =
      some { status := some 1, errRaw := some 0x2000 } := by decide

/-! NAM -/

/-- V-A-1 to V-A-4. -/
theorem test_addr4FromBytes :
    rspOf .addr4FromBytes (onBuf [0x0A, 0x00, 0x00, 0x01]) =
      some { status := some 0, addr := some (.v4 0x0A000001) } ∧
    rspOf .addr4FromBytes (onBuf [0x0A, 0x00, 0x00, 0x01, 0x00]) =
      some { status := some 4, errExpected := some 4, errActual := some 5 } := by decide

/-- V-A-14 and V-A-15. -/
theorem test_addr6FromBytes :
    rspOf .addr6FromBytes (onBuf [0x20, 0x01, 0x0D, 0xB8, 0, 0, 0, 0, 0, 0, 0, 0, 0, 0, 0, 0x01]) =
      some { status := some 0, addr := some (.v6 0x20010DB8000000000000000000000001) } ∧
    rspOf .addr6FromBytes (onBuf [0x0A, 0x00, 0x00, 0x01]) =
      some { status := some 4, errExpected := some 16, errActual := some 4 } := by decide

/-- V-A-5 and V-A-21. -/
theorem test_addrToBytes :
    rspOf .addrToBytes (onAddr (.v4 0x0A000001) (.v4 0)) =
      some { status := some 0, buf := some [0x0A, 0x00, 0x00, 0x01] } ∧
    rspOf .addrToBytes (onAddr (.v6 0x20010DB8000000000000000000000001) (.v4 0)) =
      some { status := some 0, buf := some [0x20, 0x01, 0x0D, 0xB8, 0, 0, 0, 0, 0, 0, 0, 0, 0, 0, 0, 0x01] } := by
  decide

/-- V-A-19 and V-A-24. -/
theorem test_addrEq :
    rspOf .addrEq (onAddr (.v4 0x0A000001) (.v6 0x0000000000000000000FFFF0A000001)) =
      some { status := some 0, bool := some false } ∧
    rspOf .addrEq (onAddr (.v6 7) (.v6 7)) = some { status := some 0, bool := some true } := by decide

/-- "10.0.0.1" -/
def text10001 : Text := [0x31, 0x30, 0x2E, 0x30, 0x2E, 0x30, 0x2E, 0x31]

/-- "255.255.255.255" -/
def text255 : Text :=
  [0x32, 0x35, 0x35, 0x2E, 0x32, 0x35, 0x35, 0x2E, 0x32, 0x35, 0x35, 0x2E, 0x32, 0x35, 0x35]

/-- V-A-6 and, of V-A-7, "255.255.255.255". -/
theorem test_addrToText_v4 :
    rspOf .addrToText (onAddr (.v4 0x0A000001) (.v4 0)) = some { status := some 0, text := some text10001 } ∧
    rspOf .addrToText (onAddr (.v4 0xFFFFFFFF) (.v4 0)) = some { status := some 0, text := some text255 } := by
  decide

/-- V-A-8, for every collaborator (R113). -/
theorem test_addr4FromText_rendered :
    rspOf .addr4FromText (onText text10001) = some { status := some 0, addr := some (.v4 0x0A000001) } := by
  have h : collab4.parse text10001 = some 0x0A000001 := collab4.parseRender 0x0A000001
  have e : exec .addr4FromText (onText text10001) =
      .next (complete (addrFromText text10001 ((collab4.parse text10001).map .v4)) (onText text10001)) := rfl
  rw [rspOf, e, h]; rfl

/-- V-A-10, for every collaborator (R112 (d)): "::1". -/
theorem test_addr4FromText_colon :
    rspOf .addr4FromText (onText [0x3A, 0x3A, 0x31]) =
      some { status := some 5, errText := some [0x3A, 0x3A, 0x31] } := by
  have h : collab4.parse [0x3A, 0x3A, 0x31] = none := collab4.rejectsColon _ (by decide)
  have e : exec .addr4FromText (onText [0x3A, 0x3A, 0x31]) = .next (complete
      (addrFromText [0x3A, 0x3A, 0x31] ((collab4.parse [0x3A, 0x3A, 0x31]).map .v4))
      (onText [0x3A, 0x3A, 0x31])) := rfl
  rw [rspOf, e, h]; rfl

/-- V-A-18, for every collaborator (R112 (d)). -/
theorem test_addr6FromText_noColon :
    rspOf .addr6FromText (onText text10001) = some { status := some 5, errText := some text10001 } := by
  have h : collab6.parse text10001 = none := collab6.rejectsNoColon _ (by decide)
  have e : exec .addr6FromText (onText text10001) =
      .next (complete (addrFromText text10001 ((collab6.parse text10001).map .v6)) (onText text10001)) := rfl
  rw [rspOf, e, h]; rfl

/-- V-A-16, V-A-20 and V-A-22, of the reference RENDER6: "2001:db8::1", "::", "::ffff:10.0.0.1", "1:0:0:2::3". -/
theorem test_refRender6 :
    refRender6 0x20010DB8000000000000000000000001 =
      [0x32, 0x30, 0x30, 0x31, 0x3A, 0x64, 0x62, 0x38, 0x3A, 0x3A, 0x31] ∧
    refRender6 0 = [0x3A, 0x3A] ∧
    refRender6 0xFFFF0A000001 = [0x3A, 0x3A, 0x66, 0x66, 0x66, 0x66, 0x3A] ++ text10001 ∧
    refRender6 0x00010000000000020000000000000003 =
      [0x31, 0x3A, 0x30, 0x3A, 0x30, 0x3A, 0x32, 0x3A, 0x3A, 0x33] := by decide

/-- V-A-17, and of V-A-23 "1::2::3" and "12345::", of the reference PARSE6: "2001:0DB8:0:0::0001". -/
theorem test_refParse6 :
    refParse6 [0x32, 0x30, 0x30, 0x31, 0x3A, 0x30, 0x44, 0x42, 0x38, 0x3A, 0x30, 0x3A, 0x30, 0x3A, 0x3A, 0x30, 0x30,
      0x30, 0x31] = some 0x20010DB8000000000000000000000001 ∧
    refParse6 [0x31, 0x3A, 0x3A, 0x32, 0x3A, 0x3A, 0x33] = none ∧
    refParse6 [0x31, 0x32, 0x33, 0x34, 0x35, 0x3A, 0x3A] = none := by decide

/-- V-A-9, V-A-11 and V-A-12, of the reference PARSE4: "256.0.0.1", "10.0.0", "010.0.0.1". -/
theorem test_refParse4 :
    refParse4 text10001 = some 0x0A000001 ∧
    refParse4 [0x32, 0x35, 0x36, 0x2E, 0x30, 0x2E, 0x30, 0x2E, 0x31] = none ∧
    refParse4 [0x31, 0x30, 0x2E, 0x30, 0x2E, 0x30] = none ∧
    refParse4 [0x30, 0x31, 0x30, 0x2E, 0x30, 0x2E, 0x30, 0x2E, 0x31] = none := by decide

/-! SCALAR -/

/-- V-SC-1, of the reference RENDER_HEX16: "0x0002". -/
theorem test_refRenderHex16 : refRenderHex16 0x0002 = [0x30, 0x78, 0x30, 0x30, 0x30, 0x32] := by decide

/-- V-SC-5. -/
theorem test_portAddress :
    portAddress { p8 with net := 0x01, address := 0x23 } = 0x0123 ∧
    portAddress { p8 with net := 0x80, address := 0x00 } = 0x0000 ∧
    portAddress { p8 with net := 0xFF, address := 0x10 } = 0x7F10 := by decide

/-- UIDTOTAL_TO_TEXT runs on 0x0000 and 0xFFFF (R203), whatever the renderer. -/
theorem test_uidTotalToText :
    (rspOf .uidTotalToText State.reset).map (·.status) = some (some 0) := by rfl

/-! RESERVED, and the requester's side -/

theorem test_reserved :
    exec .reserved0 State.reset = .refused (.reservedOpSelect 0x0) ∧
    exec .reservedF State.reset = .refused (.reservedOpSelect 0xF) := ⟨rfl, rfl⟩

/-- The response after `k` steps, if none stops. -/
def runRsp (k : Nat) (s : State) : Option Response :=
  match Host.Core.run Sys2Proof.core k s with
  | .next t => some t.rsp
  | .fault _ => none
  | .refused _ => none

/-- Lines 1 and 3 of program P2. -/
def programP2 : List RequesterAct :=
  requestLine 0x1 [.buf ([0x00, 0x81] ++ b8.set 12 0x01)] ++ requestLine 0x3 [.buf (b8.take 9)]

/-- P2, lines 1 and 3: a bad command byte, then a short payload; nothing of line 1 remains. -/
theorem test_program_p2 :
    runRsp 3 (onProgram programP2) =
      some { status := some 3, errField := some .command, errRaw := some 0x0001 } ∧
    runRsp 6 (onProgram programP2) = some (truncated 10 9) := by decide

/-- V-FR-12: after FRAME_ENCODE, reading `rsp_pkt` faults. -/
theorem test_read_after_frameEncode :
    Host.Core.run Sys2Proof.core 4 (onProgram (requestLine 0x2 [.pkt (.packet (.todData p8))] ++ [.read .pkt])) =
      .fault (.noValue .pkt) := by rfl

/-! Witnesses: the hypotheses of each statement can be met -/

theorem witness_DecodeEncodeAgree : ∃ i : Instr, i.wellFormed = true := ⟨.anyOtherWireOpcode 5, by decide⟩

theorem witness_EncodeDecodeAgree : ∃ f bytes rest i, decode f bytes = .ok (i, rest) :=
  ⟨.wireOpcode16le, [0x00, 0x20], [], .anyOtherWireOpcode 0x2000, rfl⟩

theorem witness_LookupHasOneEntry : ∃ o : OpCode, o ≠ Config.opTodData := ⟨0x2000, by decide⟩

theorem witness_IssueRunsSelected : ∃ (s : State) (rest : List RequesterAct) (i : Instr), s.requester = .issue :: rest ∧
    decode .opSelect4 [s.req.op.setWidth 8] = .ok (i, []) :=
  ⟨onProgram [.issue], [], .reserved0, rfl, rfl⟩

theorem witness_IssueRunsWireInstruction : ∃ (s : State) (rest : List RequesterAct) (i : Instr) (payload : List Byte),
    s.requester = .issue :: rest ∧ s.req.op = 1 ∧ decode .wireOpcode16le s.req.buf = .ok (i, payload) :=
  ⟨{ onBuf ([0x00, 0x81] ++ b8) with requester := [.issue], req := { (onBuf ([0x00, 0x81] ++ b8)).req with op := 1 } },
    [], .opTodData, b8, rfl, rfl, rfl⟩

theorem witness_TableWordRunsNext : decodeTableWord 16 0x2000 = some (.anyOtherWireOpcode 0x2000) ∧
    decodeTableWord 8 0x4 = some .todEncode := ⟨rfl, rfl⟩

theorem witness_RequestLineRuns : ∃ (s : State) (op : BitVec 4) (operands : List ReqWrite) (rest : List RequesterAct),
    s.requester = requestLine op operands ++ rest :=
  ⟨{ State.reset with requester := requestLine 0xB [.addrA (.v4 1), .addrB (.v4 2)] ++ [.read .bool] }, 0xB,
    [.addrA (.v4 1), .addrB (.v4 2)], [.read .bool], rfl⟩

theorem witness_IdleBlockWaits : State.reset.requester = [] := rfl

theorem witness_RequestWriteChangesOneRegister : ∃ (s : State) (w : ReqWrite) (rest : List RequesterAct),
    s.requester = .write w :: rest := ⟨onProgram [.write (.op 3)], .op 3, [], rfl⟩

/-- One witness for each clause: a register without a value, one with a value, and a code never produced. -/
theorem witness_ReadFaultsWithoutValue :
    (State.reset.rsp.value .pkt = none) ∧
    (Response.value .errRaw { status := some 1, errRaw := some 7 } = some (.word 7) ∧
      Response.value .status { status := some 5 } = some (.status 5) ∧ (5 : BitVec 3).toNat ≤ 5) ∧
    (Response.value .status { status := some 6 } = some (.status 6) ∧ 5 < (6 : BitVec 3).toNat) := by decide

theorem witness_ReadableExactlyWhereWritten : ∃ (i : Instr) (s t : State) (status : BitVec 3),
    exec i s = .next t ∧ t.rsp.status = some status :=
  ⟨.todDecode, onBuf [], _, 2, rfl, by decide⟩

/-- An operation that completes, for the statements whose only hypothesis is that. -/
theorem witness_completes : ∃ (i : Instr) (s t : State), exec i s = .next t :=
  ⟨.frameDecode, onBuf ([0x00, 0x81] ++ b8), _, rfl⟩

theorem witness_ResponseDependsOnOperandsOnly : ∃ (i : Instr) (s t s' : State), s ≠ t ∧ SameOperands i s t ∧
    exec i s = .next s' :=
  ⟨.frameDecode, onBuf b8, { onBuf b8 with rsp := truncated 2 1 }, _, by decide, rfl, rfl⟩

/-- One witness for each half: a next request that completes, and one that is refused. -/
theorem witness_NoOperationAffectsTheNext :
    (∃ (i j : Instr) (s t x : State) (q : Request), exec i s = .next t ∧ exec j { s with req := q } = .next x) ∧
    ∃ (i j : Instr) (s t : State) (q : Request) (r : Refusal), exec i s = .next t ∧
      exec j { s with req := q } = .refused r :=
  ⟨⟨.todDecode, .addrEq, onBuf [], _, _, Request.reset, rfl, rfl⟩,
    ⟨.todDecode, .todEncode, onBuf [], _, Request.reset, .operandNotOfType, rfl, rfl⟩⟩

theorem witness_AdmittedRequestsComplete :
    Admitted .todEncode (onPkt (.tod p8)) ∧ ¬ Admitted .todEncode State.reset := by
  refine ⟨⟨p8, rfl, by decide⟩, ?_⟩
  rintro ⟨p, h, _⟩
  cases h

/-- A buffer and a text longer than this instance admits, and a tod of 256 entries. -/
theorem witness_RefusalsByName :
    Config.maxBufLen < (onBuf (List.replicate (Config.maxBufLen + 1) 0)).req.buf.length ∧
    Config.maxTextLen < (onText (List.replicate (Config.maxTextLen + 1) 0)).req.text.length ∧
    (onPkt (.tod p8)).req.pkt = .tod p8 ∧ (onPkt (.packet (.todData p8))).req.pkt = .packet (.todData p8) ∧
    Config.todMax < { p8 with tod := List.replicate 256 0 : TodPacket }.tod.length := by
  refine ⟨?_, ?_, rfl, rfl, ?_⟩
  · show _ < (List.replicate _ _).length
    rw [List.length_replicate]; exact Nat.lt_succ_self _
  · show _ < (List.replicate _ _).length
    rw [List.length_replicate]; exact Nat.lt_succ_self _
  · show _ < (List.replicate _ _).length
    rw [List.length_replicate]; decide

theorem witness_ReservedSelectsRefused : ∃ (s : State) (rest : List RequesterAct), s.requester = .issue :: rest ∧
    s.req.op ∈ [(0x0 : BitVec 4), 0xD, 0xE, 0xF] := ⟨onProgram [.issue], [], rfl, by decide⟩

theorem witness_TotalOperationsFinishOk : Admitted .frameEncode (onPkt (.packet (.todData p8))) :=
  ⟨p8, rfl, by decide⟩

theorem witness_DecodeIsTotal : (onBuf b8).req.buf.length ≤ Config.maxBufLen := le_maxBufLen (by decide)

theorem witness_reset_consistent : (Response.Consistent {}) where
  statusLegal := by simp
  beforeFirst := by simp [Response.NoResult, Response.NoError]
  onOk := by simp
  onError := by simp
  unknownOpCode := by simp
  truncated := by simp
  invalidEnum := by simp
  invalidLength := by simp
  invalidText := by simp
  opcodeOfType := by simp
  packetCounted := by simp
  bufferBound := by simp

theorem witness_StepKeepsInvariant : ∃ s t : State, s.Inv ∧ step s = .next t ∧ s ≠ t :=
  ⟨{ onBuf [] with requester := [.write (.op 3)] }, _, ⟨witness_reset_consistent, rfl⟩, rfl, by decide⟩

theorem witness_TodDecodeResult : ∃ (s : State) (v : TodPacket) (reserved trailing : List Byte),
    v.CountConsistent ∧ reserved.length = 6 ∧ s.req.buf = payloadLayout v reserved ++ trailing ∧
    s.req.buf.length ≤ Config.maxBufLen :=
  ⟨onBuf (payloadLayout p8 [0xDE, 0xAD, 0xBE, 0xEF, 0x55, 0xAA] ++ [0x99]), p8, [0xDE, 0xAD, 0xBE, 0xEF, 0x55, 0xAA],
    [0x99], by decide, rfl, rfl, le_maxBufLen (by decide)⟩

/-- The two ends of the range, and the lengths where the command byte is there. -/
theorem witness_TodDecodeHeaderTruncated :
    ∀ n ∈ [0, 12, 13, 17], (onBuf (List.replicate n 0)).req.buf.length < 18 ∧
      ∀ c, (onBuf (List.replicate n 0)).req.buf[12]? = some c → c = 0x00 ∨ c = 0xFF := by decide

theorem witness_TodDecodeInvalidCommand : ∃ (s : State) (c : Byte), s.req.buf[12]? = some c ∧ c ≠ 0x00 ∧ c ≠ 0xFF ∧
    s.req.buf.length ≤ Config.maxBufLen := ⟨onBuf (b8.set 12 0xFE), 0xFE, by decide, by decide, by decide, le_maxBufLen (by decide)⟩

/-- The first UID missing, and the last. -/
theorem witness_TodDecodeUidTruncated :
    ((onBuf (b8.take 18)).req.buf[12]? = some 0x00 ∧ (onBuf (b8.take 18)).req.buf[17]? = some 2 ∧
      18 + 6 * 0 ≤ (onBuf (b8.take 18)).req.buf.length ∧ (onBuf (b8.take 18)).req.buf.length < 18 + 6 * (0 + 1)) ∧
    ((onBuf (b8.take 29)).req.buf[12]? = some 0x00 ∧ (onBuf (b8.take 29)).req.buf[17]? = some 2 ∧
      18 + 6 * 1 ≤ (onBuf (b8.take 29)).req.buf.length ∧
      (onBuf (b8.take 29)).req.buf.length < 18 + 6 * (1 + 1)) := by decide

/-- A payload that decodes, for TodDecodeCountsUids and PayloadBytesRoundTrip. -/
theorem witness_PayloadBytesRoundTrip : ∃ (s t u : State) (v : TodPacket), exec .todDecode s = .next t ∧
    t.rsp.pkt = some (.tod v) ∧ u.req.pkt = .tod v :=
  ⟨onBuf b8, _, onPkt (.tod p8), p8, rfl, by decide, rfl⟩

theorem witness_TodEncodeResult : (onPkt (.tod p8)).req.pkt = .tod p8 ∧ p8.WithinCapacity ∧ p8.CountConsistent := by
  decide

theorem witness_EncodedLengths : ∃ (s t s' t' : State),
    (s.req.pkt = .tod p8 ∧ exec .todEncode s = .next t) ∧
    (s'.req.pkt = .packet (.todData p8) ∧ exec .frameEncode s' = .next t') :=
  ⟨onPkt (.tod p8), _, onPkt (.packet (.todData p8)), _, ⟨rfl, rfl⟩, ⟨rfl, rfl⟩⟩

theorem witness_FrameDecodeShort : (onBuf []).req.buf.length < 2 ∧ (onBuf [0x00]).req.buf.length < 2 := by decide

theorem witness_UnknownOpcodeResult : ∃ (s : State) (o : OpCode) (payload : List Byte),
    s.req.buf = frameLayout o payload ∧ o ≠ Config.opTodData ∧ s.req.buf.length ≤ Config.maxBufLen :=
  ⟨onBuf (frameLayout 0x2000 b8), 0x2000, b8, rfl, by decide, le_maxBufLen (by decide)⟩

theorem witness_FrameDecodeResult : ∃ (s : State) (v : TodPacket) (reserved trailing : List Byte),
    v.CountConsistent ∧ reserved.length = 6 ∧
    s.req.buf = frameLayout Config.opTodData (payloadLayout v reserved ++ trailing) ∧
    s.req.buf.length ≤ Config.maxBufLen :=
  ⟨onBuf (frameLayout Config.opTodData (payloadLayout p8 zeroReserved ++ [])), p8, zeroReserved, [], by decide, rfl, rfl,
    le_maxBufLen (by decide)⟩

theorem witness_FrameDecodePassesErrors : ∃ (s u w : State) (payload : List Byte),
    s.req.buf = frameLayout Config.opTodData payload ∧ s.req.buf.length ≤ Config.maxBufLen ∧ u.req.buf = payload ∧
    exec .todDecode u = .next w ∧ w.rsp.status ≠ some 0 :=
  ⟨onBuf (frameLayout Config.opTodData []), onBuf [], _, [], rfl, le_maxBufLen (by decide), rfl, rfl, by decide⟩

theorem witness_ResponseOpcode : ∃ s t : State, exec .frameDecode s = .next t ∧ t.rsp.status = some 0 :=
  ⟨onBuf ([0x00, 0x81] ++ b8), _, rfl, by decide⟩

theorem witness_FrameEncodeResult :
    (onPkt (.packet (.todData p8))).req.pkt = .packet (.todData p8) ∧ p8.WithinCapacity ∧ p8.CountConsistent := by
  decide

/-- Each clause: four bytes, and a length beside four on either side. -/
theorem witness_Addr4FromBytesResult :
    (onBuf [0x0A, 0x00, 0x00, 0x01]).req.buf = rawLayout (.v4 0x0A000001) ∧
    (onBuf [0x0A, 0x00, 0x00, 0x01]).req.buf.length = 4 ∧ (onBuf [0, 0, 0]).req.buf.length ≠ 4 ∧
    (onBuf [0, 0, 0, 0, 0]).req.buf.length ≠ 4 ∧ (onBuf [0, 0, 0, 0, 0]).req.buf.length ≤ Config.maxBufLen :=
  ⟨by decide, by decide, by decide, by decide, le_maxBufLen (by decide)⟩

/-- Each clause: sixteen bytes, and a length beside sixteen on either side. -/
theorem witness_Addr6FromBytesResult :
    (onBuf (rawLayout (.v6 1))).req.buf = rawLayout (.v6 1) ∧ (onBuf (rawLayout (.v6 1))).req.buf.length = 16 ∧
    (onBuf (List.replicate 15 0)).req.buf.length ≠ 16 ∧ (onBuf (List.replicate 17 0)).req.buf.length ≠ 16 ∧
    (onBuf (List.replicate 17 0)).req.buf.length ≤ Config.maxBufLen :=
  ⟨rfl, by decide, by decide, by decide, le_maxBufLen (by decide)⟩

theorem witness_RawRoundTrip :
    (∃ (s t u : State), exec .addr4FromBytes s = .next t ∧ t.rsp.addr = some u.req.addrA) ∧
    (∃ (s t u : State), exec .addr6FromBytes s = .next t ∧ t.rsp.addr = some u.req.addrA) ∧
    ∃ (s t u : State), exec .addrToBytes s = .next t ∧ t.rsp.buf = some u.req.buf :=
  ⟨⟨onBuf [0x0A, 0x00, 0x00, 0x01], _, onAddr (.v4 0x0A000001) (.v4 0), rfl, by decide⟩,
    ⟨onBuf (rawLayout (.v6 1)), _, onAddr (.v6 1) (.v4 0), rfl, by decide⟩,
    ⟨onAddr (.v6 1) (.v4 0), _, onBuf (rawLayout (.v6 1)), rfl, by decide⟩⟩

/-- Each clause, for every collaborator: a rendered text is accepted, a text with ':' is rejected. -/
theorem witness_Addr4FromTextResult :
    (onText text10001).req.text.length ≤ Config.maxTextLen ∧
    collab4.parse (onText text10001).req.text = some 0x0A000001 ∧
    collab4.parse (onText [0x3A]).req.text = none :=
  ⟨le_maxTextLen (by decide), collab4.parseRender 0x0A000001, collab4.rejectsColon _ (by decide)⟩

/-- Each clause, for every collaborator: a rendered text is accepted, a text without ':' is rejected. -/
theorem witness_Addr6FromTextResult :
    (onText (collab6.render 1)).req.text.length ≤ Config.maxTextLen ∧
    collab6.parse (onText (collab6.render 1)).req.text = some 1 ∧ collab6.parse (onText []).req.text = none :=
  ⟨collab6.renderFits 1, collab6.parseRender 1, collab6.rejectsNoColon _ (by decide)⟩

/-- Each clause: the bytes beside the printable range, a text with ':', and one without. -/
theorem witness_TextsAlwaysRejected :
    (onText [0x20]).req.text.length ≤ Config.maxTextLen ∧
    (∃ c ∈ (onText [0x20]).req.text, c.toNat < 0x21 ∨ 0x7E < c.toNat) ∧
    (∃ c ∈ (onText [0x7F]).req.text, c.toNat < 0x21 ∨ 0x7E < c.toNat) ∧
    chColon ∈ (onText [0x3A]).req.text ∧ chColon ∉ (onText text10001).req.text :=
  ⟨le_maxTextLen (by decide), by decide, by decide, by decide, by decide⟩

theorem witness_AddrToTextIPv4 : (onAddr (.v4 0x0A000001) (.v4 0)).req.addrA = .v4 0x0A000001 := rfl

theorem witness_AddrToTextFits : (onAddr (.v6 1) (.v4 0)).req.addrA = .v6 1 := rfl

theorem witness_TextRoundTrip :
    (∃ (s t u : State), exec .addrToText s = .next t ∧ t.rsp.text = some u.req.text ∧ s.req.addrA = .v4 1) ∧
    ∃ (s t u : State), exec .addrToText s = .next t ∧ t.rsp.text = some u.req.text ∧ s.req.addrA = .v6 1 :=
  ⟨⟨onAddr (.v4 1) (.v4 0), _, onText (render4 1), rfl, rfl, rfl⟩,
    ⟨onAddr (.v6 1) (.v4 0), _, onText (collab6.render 1), rfl, rfl, rfl⟩⟩

/-- Each clause: both command bytes, and the bytes beside them. -/
theorem witness_CommandBytes : cmdFromByte 0x00 = .ok .fullTod ∧ cmdFromByte 0xFF = .ok .nak ∧
    (0x01 : Byte) ≠ 0x00 ∧ (0x01 : Byte) ≠ 0xFF ∧ (0xFE : Byte) ≠ 0x00 ∧ (0xFE : Byte) ≠ 0xFF :=
  ⟨rfl, rfl, by decide, by decide, by decide, by decide⟩

theorem witness_CommandRoundTrip : ∃ c k, cmdFromByte c = .ok k := ⟨0xFF, .nak, rfl⟩

theorem witness_ConstructionDefaults : ∃ a b : TodArgs, a.protocolVersion = none ∧ b.protocolVersion = some 13 :=
  ⟨⟨none, 0, 0, [1], 0, 0, .nak, 0, ⟨0⟩, 0, 0, []⟩, ⟨some 13, 0, 0, [], 0, 0, .nak, 0, ⟨0⟩, 0, 0, []⟩, rfl, rfl⟩

end Sys2Proof.Tests
end

section
/-! Scope: what no operation changes (R11, R35). -/

namespace Sys2Proof.Machine

/-- Settles O16: whatever the operation, its next state is `complete r s` for some result `r`, and `complete` writes
only the response registers and ends the cursor. -/
theorem operationsChangeNoInput : Obligations.OperationsChangeNoInput := by
  intro i s t h
  obtain ⟨r, rfl⟩ := exec_eq_next h
  exact ⟨complete_req r s, complete_requester r s, complete_lastRead r s, complete_cur r s⟩

end Sys2Proof.Machine
end

section
/-! Scope: the requester's side. What the step of a write (R33, R258) and of a read (R256) is. -/

namespace Sys2Proof.Machine

theorem step_of_write {s : State} {w : ReqWrite} {rest : List RequesterAct} (h : s.requester = .write w :: rest) :
    step s = .next { s with req := s.req.write w, requester := rest } := by
  simp [step, h, actWrite_eq]

theorem step_of_read {s : State} {r : RspReg} {rest : List RequesterAct} (h : s.requester = .read r :: rest) :
    step s = actRead r { s with requester := rest } := by
  simp [step, h]

theorem actRead_of_ok {r : RspReg} {s : State} {v : RspValue} (h : readRsp r s.rsp = .ok v) :
    actRead r s = .next { s with lastRead := some v } := by
  simp [actRead, h]

theorem actRead_of_error {r : RspReg} {s : State} {e : Fault} (h : readRsp r s.rsp = .error e) :
    actRead r s = .fault e := by
  simp [actRead, h]

/-- A read of a status code the block never produces faults (I17). -/
theorem readRsp_reservedStatus {r : RspReg} {p : Response} {c : BitVec 3} (h : p.value r = some (.status c))
    (hc : 5 < c.toNat) : readRsp r p = .error (.reservedStatus c) := by
  simp [readRsp, h, Nat.not_le.2 hc]

/-- Settles O12: the step is the one write of `req`, and each write is an update of one field. -/
theorem requestWriteChangesOneRegister : Obligations.RequestWriteChangesOneRegister := by
  intro s w rest h
  exact ⟨s.req.write w, step_of_write h, by cases w <;> rfl⟩

/-- Settles O13: the step is `actRead`, and `readRsp` answers by what the register holds. -/
theorem readFaultsWithoutValue : Obligations.ReadFaultsWithoutValue := by
  intro s r rest h
  rw [step_of_read h]
  refine ⟨fun hn => ?_, fun v hv hlegal => ?_, fun c hv hc => ?_⟩
  · exact actRead_of_error (readRsp_noValue hn)
  · exact actRead_of_ok (readRsp_value hv hlegal)
  · exact actRead_of_error (readRsp_reservedStatus hv hc)

end Sys2Proof.Machine
end

section
/-! Scope: an operation as a function of the request registers alone (R33, R51). `answer` is what an operation makes of
them, and `exec_eq_conclude` ties it to `exec`: all an operation does is end in its answer. -/

namespace Sys2Proof.Machine

/-- What an operation over `req_buf` makes of it, or its refusal (R240). -/
def bufAnswer (q : Request) (f : List Byte → Except BlockError Output) :
    Except Refusal (Except BlockError Output) :=
  if bufFits q.buf.length then .ok (f q.buf) else .error (.bufferTooLong q.buf.length)

/-- What an operation over `req_text` makes of it, or its refusal (R240). -/
def textAnswer (q : Request) (f : Text → Except BlockError Output) : Except Refusal (Except BlockError Output) :=
  if textFits q.text.length then .ok (f q.text) else .error (.textTooLong q.text.length)

/-- The bytes an operation over a packet writes, or its refusal of a packet of more than TOD_MAX UIDs (R175, R240). -/
def pktAnswer (p : TodPacket) (b : List Byte) : Except Refusal (Except BlockError Output) :=
  if p.fits then .ok (.ok (.bytes b)) else .error .operandNotOfType

/-- How each operation ends on given request registers: in a result or an error, or refused. -/
def answer : Instr → Request → Except Refusal (Except BlockError Output)
  | .frameDecode, q => bufAnswer q frameDecode
  | .frameEncode, q => match q.pkt with
    | .packet (.todData p) => pktAnswer p (frameEncode (.todData p))
    | .tod _ => .error .operandNotOfType
  | .todDecode, q => bufAnswer q fun b => (todDecode b).map .tod
  | .todEncode, q => match q.pkt with
    | .tod p => pktAnswer p (todEncode p)
    | .packet _ => .error .operandNotOfType
  | .addr4FromBytes, q => bufAnswer q (addrFromBytes 4 fun b => .v4 (beN 32 b))
  | .addr6FromBytes, q => bufAnswer q (addrFromBytes 16 fun b => .v6 (beN 128 b))
  | .addr4FromText, q => textAnswer q fun t => addrFromText t ((collab4.parse t).map .v4)
  | .addr6FromText, q => textAnswer q fun t => addrFromText t ((collab6.parse t).map .v6)
  | .addrToBytes, q => .ok (.ok (.bytes (addrToBytes q.addrA)))
  | .addrToText, q => .ok (.ok (.text (addrToText q.addrA)))
  | .addrEq, q => .ok (.ok (.bool (addrEq q.addrA q.addrB)))
  | .uidTotalToText, q => .ok (.ok (.text (hexRenderer.render q.u16.raw)))
  | .reserved0, _ => .error (.reservedOpSelect 0x0)
  | .reservedD, _ => .error (.reservedOpSelect 0xD)
  | .reservedE, _ => .error (.reservedOpSelect 0xE)
  | .reservedF, _ => .error (.reservedOpSelect 0xF)
  | .opTodData, q => bufAnswer q fun b => frameTod Config.opTodData (b.drop 2)
  | .anyOtherWireOpcode raw, q => bufAnswer q fun _ => .error (.unknownOpCode raw)

/-- The outcome of an answer: it completes on the state it was issued in, or is refused. -/
def conclude (s : State) : Except Refusal (Except BlockError Output) → Host.Outcome State Fault Refusal
  | .ok r => .next (complete r s)
  | .error e => .refused e

theorem conclude_bufAnswer (s : State) (f : List Byte → Except BlockError Output) :
    conclude s (bufAnswer s.req f) = withBuf s fun b => complete (f b) s := by
  unfold withBuf bufAnswer
  split <;> rfl

theorem conclude_textAnswer (s : State) (f : Text → Except BlockError Output) :
    conclude s (textAnswer s.req f) = withText s fun t => complete (f t) s := by
  unfold withText textAnswer
  split <;> rfl

theorem conclude_pktAnswer (s : State) (p : TodPacket) (b : List Byte) :
    conclude s (pktAnswer p b) = if p.fits then .next (done (.bytes b) s) else .refused .operandNotOfType := by
  unfold pktAnswer
  split <;> rfl

/-- An operation does nothing but end in its answer. -/
theorem exec_eq_conclude (i : Instr) (s : State) : exec i s = conclude s (answer i s.req) := by
  cases i
  case frameDecode | todDecode | addr4FromBytes | addr6FromBytes | opTodData | anyOtherWireOpcode =>
    rw [answer, conclude_bufAnswer]; rfl
  case addr4FromText | addr6FromText => rw [answer, conclude_textAnswer]; rfl
  case frameEncode =>
    rw [exec_frameEncode, withPacketValue, answer]
    match s.req.pkt with
    | .packet (.todData p) => exact (conclude_pktAnswer s p _).symm
    | .tod _ => rfl
  case todEncode =>
    rw [exec_todEncode, withTodPacket, answer]
    match s.req.pkt with
    | .tod p => exact (conclude_pktAnswer s p _).symm
    | .packet _ => rfl
  all_goals rfl

/-- An operation answers a next state exactly where it completes with its answer. -/
theorem exec_eq_next_iff {i : Instr} {s t : State} :
    exec i s = .next t ↔ ∃ r, answer i s.req = .ok r ∧ t = complete r s := by
  rw [exec_eq_conclude]
  cases answer i s.req <;> simp [conclude, eq_comm]

/-- An operation's answer is the same for the same operands (R33). -/
theorem answer_eq_of_sameOperands {i : Instr} {s t : State} (h : SameOperands i s t) :
    answer i s.req = answer i t.req := by
  cases i
  case frameDecode | todDecode | addr4FromBytes | addr6FromBytes | opTodData | anyOtherWireOpcode =>
    have hbuf : s.req.buf = t.req.buf := h
    simp only [answer, bufAnswer, hbuf]
  case frameEncode | todEncode =>
    have hpkt : s.req.pkt = t.req.pkt := h
    simp only [answer, hpkt]
  case addr4FromText | addr6FromText =>
    have htext : s.req.text = t.req.text := h
    simp only [answer, textAnswer, htext]
  case addrToBytes | addrToText =>
    have haddr : s.req.addrA = t.req.addrA := h
    simp only [answer, haddr]
  case addrEq =>
    obtain ⟨hA, hB⟩ := h
    simp only [answer, hA, hB]
  case uidTotalToText =>
    have hu16 : s.req.u16 = t.req.u16 := h
    simp only [answer, hu16]
  case reserved0 | reservedD | reservedE | reservedF => rfl

/-- Settles O17: the same operands give the same answer, and the response is what the answer writes. -/
theorem responseDependsOnOperandsOnly : Obligations.ResponseDependsOnOperandsOnly := by
  intro i s t s' hsame h
  obtain ⟨r, hr, rfl⟩ := exec_eq_next_iff.1 h
  rw [answer_eq_of_sameOperands hsame] at hr
  exact ⟨complete r t, exec_eq_next_iff.2 ⟨r, hr, rfl⟩, by simp⟩

end Sys2Proof.Machine
end

section
/-! Scope: what an operation can end in (R34, R145, R147, R178, R222 to R227). `Ends P x` says that the result of `x`
satisfies `P` and that its error records what its rule says; it is passed along the reads of a decode. -/

namespace Sys2Proof.Machine

/-- An error's record is as its rule says (R222 to R227). -/
def BlockError.Legal : BlockError → Prop
  | .unknownOpCode raw => raw ≠ Config.opTodData
  | .truncatedBuffer expected actual => actual < expected
  | .invalidEnumValue .command raw => raw ≠ 0x00 ∧ raw ≠ 0xFF
  | .invalidAddressLength expected actual => (expected = 4 ∨ expected = 16) ∧ actual ≠ expected
  | .invalidAddressText _ => True

/-- A result is as its rule says: R145 and R178 for a packet, R147 for a buffer. -/
def Output.Legal : Output → Prop
  | .frame o (.todData p) => o = Config.opTodData ∧ p.CountConsistent
  | .tod p => p.CountConsistent
  | .bytes b => b.length ≤ Config.minMaxBufLen
  | .addr _ | .text _ | .bool _ => True

/-- The result registers R34 lists for a result. -/
def Output.registers : Output → List RspReg
  | .frame _ _ => [.opcode, .pkt]
  | .tod _ => [.pkt]
  | .bytes _ => [.buf]
  | .addr _ => [.addr]
  | .text _ => [.text]
  | .bool _ => [.bool]

/-- A legal result in the given registers. -/
def Output.LegalIn (regs : List RspReg) (o : Output) : Prop := o.Legal ∧ o.registers = regs

/-- A computation's result satisfies `P`, and its error is legal. -/
def Ends {α : Type} (P : α → Prop) : Except BlockError α → Prop
  | .ok a => P a
  | .error e => e.Legal

theorem Ends.bind {α β : Type} {P : α → Prop} {Q : β → Prop} {x : Except BlockError α}
    {f : α → Except BlockError β} (hx : Ends P x) (hf : ∀ a, P a → Ends Q (f a)) : Ends Q (x >>= f) := by
  cases x with
  | ok a => exact hf a hx
  | error e => exact hx

theorem Ends.map {α β : Type} {P : α → Prop} {Q : β → Prop} {x : Except BlockError α} {f : α → β}
    (hx : Ends P x) (hf : ∀ a, P a → Q (f a)) : Ends Q (x.map f) := by
  cases x with
  | ok a => exact hf a hx
  | error e => exact hx

/-- A guarded read fails only where it needed more than there is (R223). -/
theorem ends_rd (w : Nat) (c : Cursor) : Ends (fun _ => True) (rd w c) := by
  by_cases h : c.inp.length < c.cur + w
  · rw [rd_error h]; exact h
  · rw [rd_ok (Nat.not_lt.1 h)]; trivial

theorem ends_rdByte (c : Cursor) : Ends (fun _ => True) (rdByte c) := (ends_rd 1 c).map fun _ _ => trivial

theorem ends_rdBe (n w : Nat) (c : Cursor) : Ends (fun _ => True) (rdBe n w c) := (ends_rd w c).map fun _ _ => trivial

/-- The UID list has as many entries as were asked for (R167). -/
theorem ends_rdUids (n : Nat) (c : Cursor) : Ends (fun r => r.1.length = n) (rdUids n c) := by
  induction n generalizing c with
  | zero => rfl
  | succ n ih =>
    refine (ends_rdBe 48 6 c).bind fun (_, c) _ => (ih c).bind fun _ hlen => ?_
    exact congrArg (· + 1) hlen

/-- A byte is rejected only where it is no command (R224). -/
theorem ends_cmdFromByte (c : Byte) : Ends (fun _ => True) (cmdFromByte c) := by
  unfold cmdFromByte
  split_ifs with h0 hFF
  · trivial
  · trivial
  · exact ⟨h0, hFF⟩

/-- A decoded packet is count-consistent (R178): its UIDs are read by its own `uidCount`. -/
theorem ends_todDecode (payload : List Byte) : Ends TodPacket.CountConsistent (todDecode payload) := by
  refine (ends_rdBe 16 2 _).bind fun (_, c) _ => ?_
  refine (ends_rdByte c).bind fun (_, c) _ => ?_
  refine (ends_rdByte c).bind fun (_, c) _ => ?_
  refine (ends_rd 6 c).bind fun (_, c) _ => ?_
  refine (ends_rdByte c).bind fun (_, c) _ => ?_
  refine (ends_rdByte c).bind fun (_, c) _ => ?_
  refine (ends_rdByte c).bind fun (commandByte, c) _ => ?_
  refine (ends_cmdFromByte commandByte).bind fun _ _ => ?_
  refine (ends_rdByte c).bind fun (_, c) _ => ?_
  refine (ends_rdBe 16 2 c).bind fun (_, c) _ => ?_
  refine (ends_rdByte c).bind fun (_, c) _ => ?_
  refine (ends_rdByte c).bind fun (uidCount, c) _ => ?_
  exact (ends_rdUids uidCount.toNat c).bind fun _ hlen => hlen.symm

theorem ends_todDecode_map (payload : List Byte) :
    Ends (Output.LegalIn [.pkt]) ((todDecode payload).map .tod) :=
  (ends_todDecode payload).map fun _ hp => ⟨hp, rfl⟩

theorem ends_frameTod (payload : List Byte) :
    Ends (Output.LegalIn [.opcode, .pkt]) (frameTod Config.opTodData payload) :=
  (ends_todDecode payload).map fun _ hp => ⟨⟨rfl, hp⟩, rfl⟩

theorem ends_frameDecode (frame : List Byte) :
    Ends (Output.LegalIn [.opcode, .pkt]) (frameDecode frame) := by
  match frame with
  | [] => rw [frameDecode_short (by simp)]; exact Nat.zero_lt_two
  | [_] => rw [frameDecode_short (by simp)]; exact Nat.one_lt_two
  | lo :: hi :: payload =>
    rw [frameDecode_cons]
    split_ifs with ho
    · exact ends_frameTod payload
    · exact ho

theorem ends_addrFromBytes {n : Nat} (hn : n = 4 ∨ n = 16) (make : List Byte → NetAddr) (b : List Byte) :
    Ends (Output.LegalIn [.addr]) (addrFromBytes n make b) := by
  unfold addrFromBytes
  split_ifs with hlen
  · exact ⟨trivial, rfl⟩
  · exact ⟨hn, hlen⟩

theorem ends_addrFromText (t : Text) (parsed : Option NetAddr) :
    Ends (Output.LegalIn [.addr]) (addrFromText t parsed) := by
  cases parsed with
  | none => trivial
  | some a => exact ⟨trivial, rfl⟩

theorem todEncode_length (p : TodPacket) : (todEncode p).length = 18 + 6 * p.tod.length := by
  simp [todEncode_eq, List.length_flatMap]
  omega

theorem frameEncode_length (p : TodPacket) : (frameEncode (.todData p)).length = 20 + 6 * p.tod.length := by
  rw [frameEncode_eq, List.length_append, todEncode_length, toLe16_length]
  omega

theorem addrToBytes_length_le (a : NetAddr) : (addrToBytes a).length ≤ 16 := by
  cases a <;> simp [addrToBytes]

theorem ends_of_bufAnswer {q : Request} {f : List Byte → Except BlockError Output} {P : Output → Prop}
    {r : Except BlockError Output} (hf : ∀ b, Ends P (f b)) (h : bufAnswer q f = .ok r) : Ends P r := by
  unfold bufAnswer at h
  split at h
  · cases h; exact hf q.buf
  · cases h

theorem ends_of_textAnswer {q : Request} {f : Text → Except BlockError Output} {P : Output → Prop}
    {r : Except BlockError Output} (hf : ∀ t, Ends P (f t)) (h : textAnswer q f = .ok r) : Ends P r := by
  unfold textAnswer at h
  split at h
  · cases h; exact hf q.text
  · cases h

theorem ends_of_pktAnswer {p : TodPacket} {b : List Byte} {r : Except BlockError Output}
    (hb : p.WithinCapacity → b.length ≤ Config.minMaxBufLen) (h : pktAnswer p b = .ok r) :
    Ends (Output.LegalIn [.buf]) r := by
  unfold pktAnswer at h
  split at h
  · rename_i hfits
    cases h
    exact ⟨hb (fits_iff.1 hfits), rfl⟩
  · cases h

/-- The longest frame is the 1550 bytes of R147. -/
theorem frameEncode_length_le {p : TodPacket} (h : p.WithinCapacity) :
    (frameEncode (.todData p)).length ≤ Config.minMaxBufLen := by
  rw [frameEncode_length]
  simp only [TodPacket.WithinCapacity, Config.todMax, Config.minMaxBufLen] at *
  omega

theorem todEncode_length_le {p : TodPacket} (h : p.WithinCapacity) : (todEncode p).length ≤ Config.minMaxBufLen := by
  have hframe := frameEncode_length_le h
  rw [frameEncode_length] at hframe
  rw [todEncode_length]
  omega

/-- Every answer is legal and in the registers of the operation's row, where the instruction stands for an encoding (an
`anyOtherWireOpcode` with the raw OP_TODDATA would record a known opcode as unknown). -/
theorem ends_answer {i : Instr} {q : Request} {r : Except BlockError Output} (hw : i.wellFormed = true)
    (h : answer i q = .ok r) : Ends (Output.LegalIn (writtenOnOk i)) r := by
  cases i
  case frameDecode => exact ends_of_bufAnswer ends_frameDecode h
  case todDecode => exact ends_of_bufAnswer ends_todDecode_map h
  case opTodData => exact ends_of_bufAnswer (fun b => ends_frameTod (b.drop 2)) h
  case anyOtherWireOpcode raw =>
    exact ends_of_bufAnswer (f := fun _ => .error (.unknownOpCode raw)) (fun _ => bne_iff_ne.1 hw) h
  case frameEncode =>
    rw [answer] at h
    split at h
    · exact ends_of_pktAnswer frameEncode_length_le h
    · cases h
  case todEncode =>
    rw [answer] at h
    split at h
    · exact ends_of_pktAnswer todEncode_length_le h
    · cases h
  case addr4FromBytes => exact ends_of_bufAnswer (ends_addrFromBytes (.inl rfl) _) h
  case addr6FromBytes => exact ends_of_bufAnswer (ends_addrFromBytes (.inr rfl) _) h
  case addr4FromText => exact ends_of_textAnswer (fun t => ends_addrFromText t _) h
  case addr6FromText => exact ends_of_textAnswer (fun t => ends_addrFromText t _) h
  case addrToBytes =>
    cases h
    exact ⟨Nat.le_trans (addrToBytes_length_le _) (by decide), rfl⟩
  case addrToText | addrEq | uidTotalToText => cases h; exact ⟨trivial, rfl⟩
  case reserved0 | reservedD | reservedE | reservedF => cases h

/-- A result is in the registers of the operation's row (R34). -/
theorem registers_of_answer {i : Instr} {q : Request} {o : Output} (h : answer i q = .ok (.ok o)) :
    o.registers = writtenOnOk i := by
  cases i
  case anyOtherWireOpcode raw =>
    simp only [answer, bufAnswer] at h
    split at h <;> cases h
  all_goals exact (ends_answer rfl h).2

end Sys2Proof.Machine
end

section
/-! Scope: which response registers the end of an operation writes, and so which can be read after it (R34, R221,
R226). -/

namespace Sys2Proof.Machine

@[simp] theorem okResponse_status (o : Output) : (okResponse o).status = some 0 := by cases o <;> rfl

@[simp] theorem errorResponse_status (e : BlockError) : (errorResponse e).status = some e.code := by cases e <;> rfl

theorem code_ne_zero (e : BlockError) : e.code ≠ 0 := by cases e <;> simp [BlockError.code]

theorem code_le_five (e : BlockError) : e.code.toNat ≤ 5 := by cases e <;> simp [BlockError.code]

/-- After a result its registers and the status hold values, and no others. -/
theorem okResponse_value_eq_none {o : Output} {r : RspReg} :
    (okResponse o).value r = none ↔ r ≠ .status ∧ r ∉ o.registers := by
  cases o <;> cases r <;> simp [Response.value, Output.registers]

/-- After an error its record and the status hold values, and no others; the operation does not matter. -/
theorem errorResponse_value_eq_none (i : Instr) {e : BlockError} {r : RspReg} :
    (errorResponse e).value r = none ↔ r ∉ writtenFor i e.code := by
  cases e <;> cases r <;> simp [Response.value, writtenFor, BlockError.code]

/-- A register holds a value after an operation exactly where the row of the operation and its status lists it. -/
theorem value_endResponse_eq_none {i : Instr} {q : Request} {x : Except BlockError Output} {c : BitVec 3}
    (h : answer i q = .ok x) (hc : (endResponse x).status = some c) (r : RspReg) :
    (endResponse x).value r = none ↔ r ∉ writtenFor i c := by
  cases x with
  | ok o =>
    obtain rfl : 0 = c := by simpa using hc
    simp [okResponse_value_eq_none, registers_of_answer h, writtenFor]
  | error e =>
    obtain rfl : e.code = c := by simpa using hc
    exact errorResponse_value_eq_none i

/-- An operation ends with a status code of R221. -/
theorem endResponse_status_le_five {x : Except BlockError Output} {c : BitVec 3}
    (h : (endResponse x).status = some c) : c.toNat ≤ 5 := by
  cases x with
  | ok o =>
    obtain rfl : 0 = c := by simpa using h
    decide
  | error e =>
    obtain rfl : e.code = c := by simpa using h
    exact code_le_five e

/-- A status value is read from the status register alone. -/
theorem status_of_value_eq_status {p : Response} {r : RspReg} {c : BitVec 3} (h : p.value r = some (.status c)) :
    p.status = some c := by
  cases r <;> simp_all [Response.value]

/-- Settles O14: the registers that hold a value are those the row lists, and none of them is a reserved status. -/
theorem readableExactlyWhereWritten : Obligations.ReadableExactlyWhereWritten := by
  intro i s t status h hstatus r
  obtain ⟨x, hx, rfl⟩ := exec_eq_next_iff.1 h
  rw [complete_rsp] at hstatus ⊢
  have hnone := value_endResponse_eq_none hx hstatus r
  refine ⟨fun hr => ?_, fun hr => readRsp_noValue (hnone.2 hr)⟩
  obtain ⟨v, hv⟩ := Option.ne_none_iff_exists'.1 fun hn => hnone.1 hn hr
  refine ⟨v, readRsp_value hv ?_⟩
  rintro c rfl
  exact endResponse_status_le_five (status_of_value_eq_status hv)

end Sys2Proof.Machine
end

section
/-! Scope: the invariant of the response registers and the cursor: it holds at reset, and every step keeps it (R34, R35,
R38, R221 to R227). -/

namespace Sys2Proof.Machine

theorem okResponse_noError (o : Output) : (okResponse o).NoError := by cases o <;> simp [Response.NoError]

theorem errorResponse_noResult (e : BlockError) : (errorResponse e).NoResult := by
  cases e <;> simp [Response.NoResult]

theorem okResponse_consistent {o : Output} (h : o.Legal) : (okResponse o).Consistent where
  statusLegal := by simp
  beforeFirst := by simp
  onOk _ := okResponse_noError o
  onError := by simp
  unknownOpCode := by simp
  truncated := by simp
  invalidEnum := by simp
  invalidLength := by simp
  invalidText := by simp
  opcodeOfType := by
    cases o
    case frame o v => obtain ⟨p⟩ := v; simpa using h.1
    all_goals simp
  packetCounted := by
    cases o
    case frame o v => obtain ⟨p⟩ := v; simpa using h.2
    case tod p => simpa [Output.Legal] using h
    all_goals simp
  bufferBound := by
    cases o
    case bytes b => simpa [Output.Legal] using h
    all_goals simp

theorem errorResponse_consistent {e : BlockError} (h : e.Legal) : (errorResponse e).Consistent := by
  obtain ⟨hbuf, hopcode, hpkt, -⟩ := errorResponse_noResult e
  exact {
    statusLegal := by simpa using code_le_five e
    beforeFirst := by simp
    onOk := fun hok => absurd (by simpa using hok) (code_ne_zero e)
    onError := fun _ _ _ => errorResponse_noResult e
    unknownOpCode := by
      cases e
      case unknownOpCode raw => simpa [BlockError.Legal] using h
      all_goals simp
    truncated := by
      cases e
      case truncatedBuffer expected actual => simpa [BlockError.Legal] using h
      all_goals simp
    invalidEnum := by
      cases e
      case invalidEnumValue field raw => cases field; exact fun _ => ⟨raw, rfl, rfl, h⟩
      all_goals simp
    invalidLength := by
      cases e
      case invalidAddressLength expected actual => simpa [BlockError.Legal] using h
      all_goals simp
    invalidText := by cases e <;> simp
    opcodeOfType := by simp [hopcode]
    packetCounted := by simp [hpkt]
    bufferBound := by simp [hbuf] }

/-- What ends legally leaves consistent response registers. -/
theorem endResponse_consistent {regs : List RspReg} {x : Except BlockError Output} (h : Ends (Output.LegalIn regs) x) :
    (endResponse x).Consistent := by
  cases x with
  | ok o => exact okResponse_consistent h.1
  | error e => exact errorResponse_consistent h

/-- An op-select stands for an encoding: no op-select decodes to a wire instruction. -/
theorem selected_wellFormed (s : State) : (selected s).wellFormed = true := by
  unfold selected decodeOpSelect
  split <;> rfl

/-- A well-formed operation leaves the invariant, whatever state it was issued in. -/
theorem inv_of_exec {i : Instr} {s t : State} (hw : i.wellFormed = true) (h : exec i s = .next t) : t.Inv := by
  obtain ⟨x, hx, rfl⟩ := exec_eq_next_iff.1 h
  exact ⟨by simpa using endResponse_consistent (ends_answer hw hx), complete_cur x s⟩

/-- Settles O26: a write and a read touch neither the response registers nor the cursor, and an issue runs a well-formed
operation. -/
theorem stepKeepsInvariant : Obligations.StepKeepsInvariant := by
  intro s t hinv h
  obtain ⟨-, rfl⟩ | ⟨w, rest, -, rfl⟩ | ⟨r, rest, v, -, -, rfl⟩ | ⟨rest, -, hexec⟩ := step_eq_next h
  · exact hinv
  · exact ⟨hinv.response, hinv.cursor⟩
  · exact ⟨hinv.response, hinv.cursor⟩
  · exact inv_of_exec (selected_wellFormed s) hexec

/-- Registers that hold no value are consistent. -/
theorem empty_consistent : ({} : Response).Consistent := by
  constructor
  case beforeFirst => simp [Response.NoResult, Response.NoError]
  all_goals simp

/-- Settles O25: at reset no response register holds a value (R38). -/
theorem resetMeetsInvariant : Obligations.ResetMeetsInvariant := ⟨empty_consistent, rfl⟩

end Sys2Proof.Machine
end

section
/-! Scope: the two encoding spaces, decoded and encoded (R54, R70, R74, R83). Each map is settled on its own first: the
16 op-selects, and the OpCodes. -/

namespace Sys2Proof.Machine

/-- The op-select map (R70, R83): every value names a well-formed instruction, whose encoding is the value as one byte. -/
theorem decodeOpSelect_spec (op : BitVec 4) :
    (decodeOpSelect op).format = .opSelect4 ∧ (decodeOpSelect op).wellFormed = true ∧
      encode (decodeOpSelect op) = [op.setWidth 8] := by
  revert op; decide

/-- The wire opcode map (R54, R74): every OpCode names a well-formed instruction, encoded as its bytes, low byte first. -/
theorem decodeWireOpcode_spec (o : OpCode) :
    (decodeWireOpcode o).format = .wireOpcode16le ∧ (decodeWireOpcode o).wellFormed = true ∧
      encode (decodeWireOpcode o) = toLe16 o := by
  unfold decodeWireOpcode
  split_ifs with ho
  · subst ho; exact ⟨rfl, rfl, rfl⟩
  · exact ⟨rfl, bne_iff_ne.2 ho, rfl⟩

/-- A byte with a zero high half is its low half, widened (log entry 17). -/
theorem setWidth_setWidth_of_lt {b : Byte} (h : b.toNat < 16) : (b.setWidth 4).setWidth 8 = b := by
  bv_omega

/-- The bytes of an OpCode decode to what the wire opcode map gives it (R74). -/
theorem decode_toLe16 (o : OpCode) (rest : List Byte) :
    decode .wireOpcode16le (toLe16 o ++ rest) = .ok (decodeWireOpcode o, rest) := by
  simp only [toLe16, List.cons_append, List.nil_append, decode, le16_toLe16]

/-- Settles O2: an op-select is one constant byte, which the decoder is run on; a wire instruction is the bytes of its
OpCode, and the OpCode is OP_TODDATA exactly for `opTodData`. -/
theorem decodeEncodeAgree : Obligations.DecodeEncodeAgree := by
  intro i rest hw
  cases i
  case opTodData => exact decode_toLe16 Config.opTodData rest
  case anyOtherWireOpcode raw =>
    have hmap : decodeWireOpcode raw = .anyOtherWireOpcode raw := if_neg (bne_iff_ne.1 hw)
    exact (decode_toLe16 raw rest).trans (by rw [hmap])
  all_goals rfl

/-- Settles O3: by the bytes the decoder accepts, a byte with a zero high half or the two bytes of an OpCode. -/
theorem encodeDecodeAgree : Obligations.EncodeDecodeAgree := by
  intro f bytes rest i h
  match f, bytes with
  | .opSelect4, b :: _ =>
    rw [decode] at h
    split_ifs at h with hb
    cases h
    obtain ⟨hformat, hwf, hencode⟩ := decodeOpSelect_spec (b.setWidth 4)
    exact ⟨hformat, hwf, by rw [hencode, setWidth_setWidth_of_lt hb]; rfl⟩
  | .wireOpcode16le, lo :: hi :: _ =>
    cases h
    obtain ⟨hformat, hwf, hencode⟩ := decodeWireOpcode_spec (le16 lo hi)
    exact ⟨hformat, hwf, by rw [hencode, toLe16_le16]; rfl⟩
  | .opSelect4, [] | .wireOpcode16le, [] | .wireOpcode16le, [_] => cases h

end Sys2Proof.Machine
end

section
/-! Scope: the same request again (R61). -/

namespace Sys2Proof.Machine

/-- Settles O18: an operation leaves its request registers, so the second time they give the same answer. -/
theorem operationsAreIdempotent : Obligations.OperationsAreIdempotent := by
  intro i s t h
  obtain ⟨r, hr, rfl⟩ := exec_eq_next_iff.1 h
  exact ⟨complete r (complete r s), exec_eq_next_iff.2 ⟨r, by rwa [complete_req], rfl⟩, by simp⟩

end Sys2Proof.Machine
end

section
/-! Scope: a frame whose OpCode has no decoder (R54, R142, R222). -/

namespace Sys2Proof.Machine

/-- The low and the high byte of an OpCode denote it (R54). -/
theorem le16_byteAt (o : OpCode) : le16 (byteAt o 0) (byteAt o 1) = o := by
  have := o.isLt
  refine BitVec.eq_of_toNat_eq ?_
  simp only [le16, byteAt, BitVec.toNat_ofNat, BitVec.extractLsb'_toNat, Nat.shiftRight_eq_div_pow]
  omega

/-- The decode of a frame with the OpCode `o` (R143). -/
theorem frameDecode_frameLayout (o : OpCode) (payload : List Byte) :
    frameDecode (frameLayout o payload) =
      if o = Config.opTodData then frameTod Config.opTodData payload else .error (.unknownOpCode o) := by
  rw [frameLayout, frameDecode_cons, le16_byteAt]

/-- Settles O37: the OpCode is read back from the frame's first two bytes, and has no decoder. -/
theorem unknownOpcodeResult : Obligations.UnknownOpcodeResult := by
  intro s o payload hbuf ho hlen
  have hdecode : frameDecode s.req.buf = .error (.unknownOpCode o) := by
    rw [hbuf, frameDecode_frameLayout, if_neg ho]
  rw [exec_frameDecode, exec_anyOtherWireOpcode, withBuf_next hlen, withBuf_next hlen, hdecode]
  exact ⟨rfl, rfl⟩

end Sys2Proof.Machine
end

section
/-! Scope: a payload that ends inside the header (R52, R160, R164). A decode is followed read by read: each reads its
field or is the one that stops it. -/

namespace Sys2Proof.Machine

/-- The offset and the width of each header field (R76), in the order they are read (R160). -/
def headerFields : List (Nat × Nat) :=
  [(0, 2), (2, 1), (3, 1), (4, 6), (10, 1), (11, 1), (12, 1), (13, 1), (14, 2), (16, 1), (17, 1)]

/-- A payload that ends inside a header field needed that field's end. -/
theorem headerStepEnd_eq {n cur w : Nat} (hf : (cur, w) ∈ headerFields) (hcur : cur ≤ n) (hn : n < cur + w) :
    headerStepEnd n = cur + w := by
  simp only [headerFields, List.mem_cons, List.not_mem_nil, or_false, Prod.mk.injEq] at hf
  unfold headerStepEnd
  split_ifs <;> omega

/-- A decode of `inp` ends in the TruncatedBuffer of the first header field that does not fit (R223). -/
def StopsInHeader {α : Type} (inp : List Byte) (x : Except BlockError α) : Prop :=
  x = .error (.truncatedBuffer (headerStepEnd inp.length) inp.length)

/-- A guarded read `x` of a header field stops the decode where the field does not fit, and passes it on where it
does. -/
theorem StopsInHeader.bind_read {α β : Type} {inp : List Byte} {cur w : Nat} {v : α}
    {x : Except BlockError (α × Cursor)} {f : α × Cursor → Except BlockError β} (hf : (cur, w) ∈ headerFields)
    (hok : cur + w ≤ inp.length → x = .ok (v, ⟨inp, cur + w⟩))
    (herror : inp.length < cur + w → x = .error (.truncatedBuffer (cur + w) inp.length)) (hcur : cur ≤ inp.length)
    (hrest : cur + w ≤ inp.length → StopsInHeader inp (f (v, ⟨inp, cur + w⟩))) : StopsInHeader inp (x >>= f) := by
  by_cases hw : cur + w ≤ inp.length
  · rw [hok hw]; exact hrest hw
  · have hlt := Nat.lt_of_not_le hw
    rw [herror hlt, StopsInHeader, headerStepEnd_eq hf hcur hlt]; rfl

/-- A check that succeeds passes the decode on. -/
theorem StopsInHeader.bind_ok {α β : Type} {inp : List Byte} {v : α} {x : Except BlockError α}
    {f : α → Except BlockError β} (hx : x = .ok v) (hrest : StopsInHeader inp (f v)) : StopsInHeader inp (x >>= f) := by
  rw [hx]; exact hrest

/-- A read of one byte reads the byte at its offset. -/
theorem getElem?_eq_memRead_one {buf : List Byte} {k : Nat} (h : k < buf.length) :
    buf[k]? = some ((memRead buf k 1).headD 0) := by
  rw [memRead, List.drop_eq_getElem_cons h, List.getElem?_eq_getElem h]; rfl

/-- A valid command byte is accepted (R207). -/
theorem cmdFromByte_ok {c : Byte} (h : c = 0x00 ∨ c = 0xFF) : ∃ k, cmdFromByte c = .ok k := by
  obtain rfl | rfl := h
  · exact ⟨.fullTod, rfl⟩
  · exact ⟨.nak, rfl⟩

/-- The reads in the order of R160: a payload of fewer than 18 bytes cannot pass them all, and a valid command byte does
not end the decode before (R163). -/
theorem todDecode_stopsInHeader {payload : List Byte} (hlen : payload.length < 18)
    (hcmd : ∀ c, payload[12]? = some c → c = 0x00 ∨ c = 0xFF) : StopsInHeader payload (todDecode payload) := by
  refine .bind_read (cur := 0) (by decide) rdBe_ok rdBe_error (Nat.zero_le _) fun h2 => ?_
  refine .bind_read (by decide) rdByte_ok rdByte_error h2 fun h3 => ?_
  refine .bind_read (by decide) rdByte_ok rdByte_error h3 fun h4 => ?_
  refine .bind_read (by decide) rd_ok rd_error h4 fun h10 => ?_
  refine .bind_read (by decide) rdByte_ok rdByte_error h10 fun h11 => ?_
  refine .bind_read (by decide) rdByte_ok rdByte_error h11 fun h12 => ?_
  refine .bind_read (by decide) rdByte_ok rdByte_error h12 fun h13 => ?_
  obtain ⟨command, hcommand⟩ := cmdFromByte_ok (hcmd _ (getElem?_eq_memRead_one h13))
  refine .bind_ok hcommand ?_
  refine .bind_read (by decide) rdByte_ok rdByte_error h13 fun h14 => ?_
  refine .bind_read (by decide) rdBe_ok rdBe_error h14 fun h16 => ?_
  refine .bind_read (by decide) rdByte_ok rdByte_error h16 fun h17 => ?_
  refine .bind_read (by decide) rdByte_ok rdByte_error h17 fun h18 => ?_
  exact absurd hlen (Nat.not_lt.2 h18)

/-- Settles O28: the payload is short enough to be admitted, and its decode stops in the header. -/
theorem todDecodeHeaderTruncated : Obligations.TodDecodeHeaderTruncated := by
  intro s hlen hcmd
  rw [exec_todDecode, withBuf_next (le_maxBufLen (by omega)), todDecode_stopsInHeader hlen hcmd]
  rfl

end Sys2Proof.Machine
end

section
/-! Scope: what an issue runs (R70, R83, R257, R262). -/

namespace Sys2Proof.Machine

theorem step_of_issue {s : State} {rest : List RequesterAct} (h : s.requester = .issue :: rest) :
    step s = exec (selected s) { s with requester := rest } := by
  simp [step, h]

/-- An op-select as one byte decodes to what the op-select map gives it (R70). -/
theorem decode_setWidth (op : BitVec 4) : decode .opSelect4 [op.setWidth 8] = .ok (decodeOpSelect op, []) := by
  obtain ⟨hformat, hwf, hencode⟩ := decodeOpSelect_spec op
  simpa [hformat, hencode] using decodeEncodeAgree (decodeOpSelect op) [] hwf

/-- Settles O7: the op-select as one byte decodes to the instruction `selected` runs. -/
theorem issueRunsSelected : Obligations.IssueRunsSelected := by
  refine ⟨fun s rest i h hi => ?_, fun op => ?_⟩
  · rw [decode_setWidth] at hi
    cases hi
    exact step_of_issue h
  · obtain ⟨-, hwf, -⟩ := decodeOpSelect_spec op
    exact ⟨decodeOpSelect op, decode_setWidth op, hwf⟩

/-- Settles O22: the four reserved op-selects are mapped to the four instructions that refuse. -/
theorem reservedSelectsRefused : Obligations.ReservedSelectsRefused := by
  refine ⟨fun s rest h hop => ?_,
    fun s => ⟨exec_reserved0 s, exec_reservedD s, exec_reservedE s, exec_reservedF s⟩⟩
  rw [step_of_issue h, selected]
  simp only [List.mem_cons, List.not_mem_nil, or_false] at hop
  obtain hop | hop | hop | hop := hop <;> rw [hop] <;> rfl

end Sys2Proof.Machine
end

section
/-! Scope: a table word presented as the next request (R70, R74, R143). A wire word is a frame, on which FRAME_DECODE is
the instruction of the frame's OpCode. -/

namespace Sys2Proof.Machine

/-- Settles O1: the decoder is run on each word. -/
theorem tableWordsDecode : Obligations.TableWordsDecode := ⟨rfl, rfl, rfl, rfl, rfl, rfl, rfl, rfl⟩

/-- A table word decodes by the map of its width: an op-select (R70), or an OpCode (R74). -/
theorem decodeTableWord_eq_some {nbits w : Nat} {i : Instr} (h : decodeTableWord nbits w = some i) :
    (nbits ≤ 8 ∧ i = decodeOpSelect (BitVec.ofNat 4 w)) ∨
      (8 < nbits ∧ i = decodeWireOpcode (BitVec.ofNat 16 w)) := by
  unfold decodeTableWord at h
  split_ifs at h
  by_cases hn : nbits ≤ 8
  · refine .inl ⟨hn, ?_⟩
    simp only [tableWordFormat, tableWordBytes, if_pos hn, decode] at h
    split_ifs at h
    rw [← Option.some.inj h, BitVec.setWidth_ofNat_of_le (by decide)]
  · refine .inr ⟨Nat.lt_of_not_le hn, ?_⟩
    have hdecode := decode_toLe16 (BitVec.ofNat 16 w) []
    rw [List.append_nil] at hdecode
    simp only [tableWordFormat, tableWordBytes, if_neg hn, hdecode] at h
    exact (Option.some.inj h).symm

/-- An operation over `req_buf` depends on what it makes of the buffer that is there. -/
theorem withBuf_congr {s : State} {f g : List Byte → State} (h : f s.req.buf = g s.req.buf) :
    withBuf s f = withBuf s g := by
  rw [withBuf, withBuf, h]

/-- FRAME_DECODE of a frame is the instruction of the frame's OpCode (R142, R143). -/
theorem exec_frameDecode_wire {s : State} {o : OpCode} {payload : List Byte} (h : s.req.buf = toLe16 o ++ payload) :
    exec .frameDecode s = exec (decodeWireOpcode o) s := by
  have hdecode : frameDecode s.req.buf =
      if o = Config.opTodData then frameTod Config.opTodData payload else .error (.unknownOpCode o) := by
    rw [h, toLe16, List.cons_append, List.singleton_append, frameDecode_cons, le16_toLe16]
  rw [exec_frameDecode, decodeWireOpcode]
  split_ifs at hdecode ⊢ with ho
  · rw [exec_opTodData]
    exact withBuf_congr (by rw [hdecode, h]; rfl)
  · rw [exec_anyOtherWireOpcode]
    exact withBuf_congr (by rw [hdecode]; rfl)

/-- Settles O9: an op-select word is written to `req_op`; an OpCode word heads the frame that FRAME_DECODE runs on. -/
theorem tableWordRunsNext : Obligations.TableWordRunsNext := by
  intro s nbits w i h
  rw [step_of_issue (s := s.withFetchWord nbits w) rfl]
  obtain ⟨hn, rfl⟩ | ⟨hn, rfl⟩ := decodeTableWord_eq_some h
  · have hop : (s.withFetchWord nbits w).req.op = BitVec.ofNat 4 w := by
      simp [State.withFetchWord, Request.withTableWord, hn]
    rw [selected, hop]
  · have hreq : (s.withFetchWord nbits w).req = { s.req with op := 1, buf := wireFrame (BitVec.ofNat 16 w) } := by
      simp [State.withFetchWord, Request.withTableWord, Nat.not_le.2 hn]
    have hselected : selected (s.withFetchWord nbits w) = .frameDecode := by
      rw [selected, hreq]; rfl
    rw [hselected]
    exact exec_frameDecode_wire (congrArg Request.buf hreq)

end Sys2Proof.Machine
end

section
/-! Scope: a request line as a run of the machine (R71, R254, R258). -/

namespace Sys2Proof.Machine

/-- A run goes on from what its first step answers. -/
theorem run_succ_of_next {M : Host.Core} {k : Nat} {s t : M.State} (h : M.step s = .next t) :
    M.run (k + 1) s = M.run k t := by
  simp only [Host.Core.run, h]

/-- A run of one step is the step. -/
theorem run_one (M : Host.Core) (s : M.State) : M.run 1 s = M.step s := by
  simp only [Host.Core.run]
  cases M.step s <;> rfl

theorem run_issue {s : State} {rest : List RequesterAct} (h : s.requester = .issue :: rest) :
    core.run 1 s = exec (selected s) { s with requester := rest } :=
  (run_one core s).trans (step_of_issue h)

/-- A run makes the writes at the head of the requester's list in order (R258). -/
theorem run_writes {k : Nat} {ws : List ReqWrite} {rest : List RequesterAct} {s : State}
    (h : s.requester = ws.map .write ++ rest) :
    core.run (ws.length + k) s =
      core.run k { s with req := ws.foldl (fun q w => q.write w) s.req, requester := rest } := by
  induction ws generalizing s with
  | nil => rw [← show s.requester = rest from h, List.length_nil, Nat.zero_add]; rfl
  | cons w ws ih =>
    rw [List.length_cons, Nat.add_right_comm]
    exact (run_succ_of_next (M := core) (step_of_write h)).trans (ih rfl)

/-- Settles O10: the op-select is the last of the line's writes, and the issue runs what it names. -/
theorem requestLineRuns : Obligations.RequestLineRuns := by
  intro s op operands rest h
  have hline : s.requester = (operands ++ [ReqWrite.op op]).map .write ++ .issue :: rest := by
    simp [h, requestLine]
  have hrun := run_writes (k := 1) hline
  rw [List.length_append, List.length_singleton] at hrun
  refine hrun.trans ((run_issue rfl).trans ?_)
  rw [selected, List.foldl_append]; rfl

end Sys2Proof.Machine
end

section
/-! Scope: which errors a decode can end in (R86, R221). -/

namespace Sys2Proof.Machine

/-- A computation fails with no other codes than these. -/
def ErrorsIn {α : Type} (codes : List (BitVec 3)) (x : Except BlockError α) : Prop :=
  ∀ e, x = .error e → e.code ∈ codes

section
variable {α β : Type} {codes : List (BitVec 3)} {x : Except BlockError α}

theorem errorsIn_ok (a : α) : ErrorsIn codes (.ok a : Except BlockError α) := by
  intro e h; cases h

theorem errorsIn_error {e : BlockError} (h : e.code ∈ codes) : ErrorsIn codes (.error e : Except BlockError α) := by
  intro e' he; cases he; exact h

theorem ErrorsIn.bind {f : α → Except BlockError β} (hx : ErrorsIn codes x) (hf : ∀ a, ErrorsIn codes (f a)) :
    ErrorsIn codes (x >>= f) := by
  cases x with
  | ok a => exact hf a
  | error e => exact errorsIn_error (hx e rfl)

theorem ErrorsIn.map {f : α → β} (hx : ErrorsIn codes x) : ErrorsIn codes (x.map f) := by
  cases x with
  | ok a => exact errorsIn_ok (f a)
  | error e => exact errorsIn_error (hx e rfl)

theorem ErrorsIn.mono {codes' : List (BitVec 3)} (hx : ErrorsIn codes x) (h : codes ⊆ codes') : ErrorsIn codes' x :=
  fun e he => h (hx e he)

end

/-- A guarded read fails with TruncatedBuffer (R223). -/
theorem errorsIn_rd (w : Nat) (c : Cursor) : ErrorsIn [2, 3] (rd w c) := by
  by_cases h : c.inp.length < c.cur + w
  · rw [rd_error h]; exact errorsIn_error (by simp [BlockError.code])
  · rw [rd_ok (Nat.not_lt.1 h)]; exact errorsIn_ok _

theorem errorsIn_rdByte (c : Cursor) : ErrorsIn [2, 3] (rdByte c) := (errorsIn_rd 1 c).map

theorem errorsIn_rdBe (n w : Nat) (c : Cursor) : ErrorsIn [2, 3] (rdBe n w c) := (errorsIn_rd w c).map

theorem errorsIn_rdUids (n : Nat) (c : Cursor) : ErrorsIn [2, 3] (rdUids n c) := by
  induction n generalizing c with
  | zero => exact errorsIn_ok _
  | succ n ih => exact (errorsIn_rdBe 48 6 c).bind fun (_, c) => (ih c).bind fun _ => errorsIn_ok _

/-- A byte that is no command is rejected with InvalidEnumValue (R224). -/
theorem errorsIn_cmdFromByte (c : Byte) : ErrorsIn [2, 3] (cmdFromByte c) := by
  unfold cmdFromByte
  split_ifs
  · exact errorsIn_ok _
  · exact errorsIn_ok _
  · exact errorsIn_error (by simp [BlockError.code])

/-- The reads in the order of R160. -/
theorem errorsIn_todDecode (payload : List Byte) : ErrorsIn [2, 3] (todDecode payload) := by
  refine (errorsIn_rdBe 16 2 _).bind fun (_, c) => ?_
  refine (errorsIn_rdByte c).bind fun (_, c) => ?_
  refine (errorsIn_rdByte c).bind fun (_, c) => ?_
  refine (errorsIn_rd 6 c).bind fun (_, c) => ?_
  refine (errorsIn_rdByte c).bind fun (_, c) => ?_
  refine (errorsIn_rdByte c).bind fun (_, c) => ?_
  refine (errorsIn_rdByte c).bind fun (commandByte, c) => ?_
  refine (errorsIn_cmdFromByte commandByte).bind fun _ => ?_
  refine (errorsIn_rdByte c).bind fun (_, c) => ?_
  refine (errorsIn_rdBe 16 2 c).bind fun (_, c) => ?_
  refine (errorsIn_rdByte c).bind fun (_, c) => ?_
  refine (errorsIn_rdByte c).bind fun (uidCount, c) => ?_
  exact (errorsIn_rdUids uidCount.toNat c).bind fun _ => errorsIn_ok _

/-- A frame fails as its payload does, with TruncatedBuffer before the OpCode (R143), or with UnknownOpCode (R142). -/
theorem errorsIn_frameDecode (frame : List Byte) : ErrorsIn [1, 2, 3] (frameDecode frame) := by
  match frame with
  | [] | [_] => rw [frameDecode_short (by simp)]; exact errorsIn_error (by simp [BlockError.code])
  | lo :: hi :: payload =>
    rw [frameDecode_cons]
    split_ifs
    · exact (errorsIn_todDecode payload).map.mono (by decide)
    · exact errorsIn_error (by simp [BlockError.code])

/-- What an operation answers: a result in the registers of its row, or one of its errors and no result (R86). -/
theorem endResponse_result_or_error {regs : List RspReg} {codes : List (BitVec 3)} {x : Except BlockError Output}
    (hends : Ends (Output.LegalIn regs) x) (herrors : ErrorsIn codes x) :
    (∃ o, o.registers = regs ∧ x = .ok o) ∨
      (∃ c ∈ codes, (endResponse x).status = some c) ∧ (endResponse x).NoResult := by
  cases x with
  | ok o => exact .inl ⟨o, hends.2, rfl⟩
  | error e => exact .inr ⟨⟨e.code, herrors e rfl, errorResponse_status e⟩, errorResponse_noResult e⟩

/-- Settles O24: the request completes, in a packet in the registers of its row or in an error its reads can end
in. -/
theorem decodeIsTotal : Obligations.DecodeIsTotal := by
  intro s hlen
  rw [exec_frameDecode, exec_todDecode, withBuf_next hlen, withBuf_next hlen]
  refine ⟨⟨_, rfl, ?_⟩, ⟨_, rfl, ?_⟩⟩
  · rw [complete_rsp]
    obtain ⟨o, hregs, hok⟩ | ⟨⟨c, hc, hstatus⟩, hnone⟩ :=
      endResponse_result_or_error (ends_frameDecode s.req.buf) (errorsIn_frameDecode s.req.buf)
    · rw [hok]
      cases o with
      | frame o v => cases v with | todData p => exact .inl ⟨rfl, p, rfl⟩
      | _ => cases hregs
    · exact .inr ⟨by simpa [hstatus] using hc, hnone⟩
  · rw [complete_rsp]
    obtain ⟨o, hregs, hok⟩ | ⟨⟨c, hc, hstatus⟩, hnone⟩ :=
      endResponse_result_or_error (ends_todDecode_map s.req.buf) (errorsIn_todDecode s.req.buf).map
    · rw [hok]
      cases o with
      | tod p => exact .inl ⟨rfl, p, rfl⟩
      | _ => cases hregs
    · exact .inr ⟨by simpa [hstatus] using hc, hnone⟩

end Sys2Proof.Machine
end

section
/-! Scope: the decode of a payload laid out as R76 and R77 say. -/

namespace Sys2Proof.Machine

/-- The most significant of the `n + 1` big-endian bytes of a value is its bits [8n+7:8n] (R9). -/
theorem toBe_succ (n : Nat) {w : Nat} (v : BitVec w) : toBe (n + 1) v = byteAt v n :: toBe n v := by
  have hbyte : BitVec.ofNat 8 (v.toNat / 256 ^ n % 256) = byteAt v n := by
    refine BitVec.eq_of_toNat_eq ?_
    simp [byteAt, BitVec.extractLsb'_toNat, Nat.shiftRight_eq_div_pow, Nat.pow_mul]
  rw [toBe, digitsBE, List.map_cons, hbyte]; rfl

theorem toBe_zero {w : Nat} (v : BitVec w) : toBe 0 v = [] := rfl

theorem beN_byteAt_two (v : BitVec 16) : beN 16 [byteAt v 1, byteAt v 0] = v := by
  simpa [toBe_succ, toBe_zero] using beN_toBe (n := 2) v rfl

/-- The block of a UID denotes it (R77). -/
theorem beN_uidBlock (u : Uid) : beN 48 (uidBlock u) = u := by
  simpa [uidBlock, toBe_succ, toBe_zero] using beN_toBe (n := 6) u rfl

/-- A guarded read at the start of a UID's block reads the UID. -/
theorem rdBe_uidBlock (pre rest : List Byte) (u : Uid) :
    rdBe 48 6 ⟨pre ++ (uidBlock u ++ rest), pre.length⟩ =
      .ok (u, ⟨pre ++ (uidBlock u ++ rest), (pre ++ uidBlock u).length⟩) := by
  have hread : memRead (pre ++ (uidBlock u ++ rest)) pre.length 6 = uidBlock u := by
    rw [memRead, List.drop_left]; rfl
  rw [rdBe_ok (by simp [uidBlock]), hread, beN_uidBlock, List.length_append]; rfl

/-- The UID list is read back from its blocks, whatever stands before and after them (R167). -/
theorem rdUids_flatMap_uidBlock (pre trailing : List Byte) (tod : List Uid) :
    ∃ c, rdUids tod.length ⟨pre ++ (tod.flatMap uidBlock ++ trailing), pre.length⟩ = .ok (tod, c) := by
  induction tod generalizing pre with
  | nil => exact ⟨_, rfl⟩
  | cons u tod ih =>
    obtain ⟨c, hc⟩ := ih (pre ++ uidBlock u)
    rw [List.append_assoc] at hc
    refine ⟨c, ?_⟩
    rw [List.length_cons, rdUids, List.flatMap_cons, List.append_assoc, rdBe_uidBlock]
    simp only [bind, Except.bind, hc]; rfl

theorem cmdFromByte_cmdToByte (k : Command) : cmdFromByte (cmdToByte k) = .ok k := by
  cases k <;> rfl

/-- A payload that holds a packet decodes to it, whatever the reserved and the trailing bytes (R161 to R167, R172). -/
theorem todDecode_payloadLayout {v : TodPacket} {reserved : List Byte} (trailing : List Byte)
    (hcount : v.CountConsistent) (hreserved : reserved.length = 6) :
    todDecode (payloadLayout v reserved ++ trailing) = .ok v := by
  match reserved, hreserved with
  | [r4, r5, r6, r7, r8, r9], _ =>
    obtain ⟨c, hc⟩ := rdUids_flatMap_uidBlock (payloadLayout { v with tod := [] } [r4, r5, r6, r7, r8, r9])
      trailing v.tod
    simp only [payloadLayout, List.cons_append, List.nil_append, List.flatMap_nil, List.append_nil, List.length_cons,
      List.length_nil] at hc ⊢
    rw [todDecode_header, cmdFromByte_cmdToByte, hcount]
    simp only [Except.bind, hc, Except.map, beN_byteAt_two]

/-- Settles O27: the buffer is admitted, and its decode is the packet. -/
theorem todDecodeResult : Obligations.TodDecodeResult := by
  intro s v reserved trailing hcount hreserved hbuf hlen
  rw [exec_todDecode, withBuf_next hlen, hbuf, todDecode_payloadLayout trailing hcount hreserved]
  rfl

end Sys2Proof.Machine
end

section
/-! Scope: the raw bytes of an address, both ways (R101 to R104, R79). -/

namespace Sys2Proof.Machine

/-- The bytes ADDR_TO_BYTES writes are those of R79. -/
theorem addrToBytes_eq_rawLayout (a : NetAddr) : addrToBytes a = rawLayout a := by
  cases a <;> simp [addrToBytes, rawLayout, toBe_succ, toBe_zero]

theorem exec_addrToBytes_eq (s : State) : exec .addrToBytes s =
    .next { s with rsp := { status := some 0, buf := some (rawLayout s.req.addrA) }, cur := none } := by
  rw [exec_addrToBytes, addrToBytes_eq_rawLayout]; rfl

theorem beN_rawLayout_v4 (bits : BitVec 32) : beN 32 (rawLayout (.v4 bits)) = bits := by
  rw [← addrToBytes_eq_rawLayout]; exact beN_toBe bits rfl

theorem beN_rawLayout_v6 (bits : BitVec 128) : beN 128 (rawLayout (.v6 bits)) = bits := by
  rw [← addrToBytes_eq_rawLayout]; exact beN_toBe bits rfl

/-- Any four bytes are the raw bytes of the IPv4 address they denote. -/
theorem rawLayout_v4_beN {bs : List Byte} (h : bs.length = 4) : rawLayout (.v4 (beN 32 bs)) = bs := by
  rw [← addrToBytes_eq_rawLayout]; exact toBe_beN h rfl

/-- Any sixteen bytes are the raw bytes of the IPv6 address they denote. -/
theorem rawLayout_v6_beN {bs : List Byte} (h : bs.length = 16) : rawLayout (.v6 (beN 128 bs)) = bs := by
  rw [← addrToBytes_eq_rawLayout]; exact toBe_beN h rfl

theorem addrFromBytes_of_length {n : Nat} {make : List Byte → NetAddr} {b : List Byte} (h : b.length = n) :
    addrFromBytes n make b = .ok (.addr (make b)) :=
  if_pos h

theorem addrFromBytes_of_length_ne {n : Nat} {make : List Byte → NetAddr} {b : List Byte} (h : b.length ≠ n) :
    addrFromBytes n make b = .error (.invalidAddressLength n b.length) :=
  if_neg h

/-- An address in the response is the one made of all the bytes, and they are as many as its family has. -/
theorem addr_endResponse_addrFromBytes {n : Nat} {make : List Byte → NetAddr} {b : List Byte} {a : NetAddr}
    (h : (endResponse (addrFromBytes n make b)).addr = some a) : b.length = n ∧ make b = a := by
  by_cases hlen : b.length = n
  · rw [addrFromBytes_of_length hlen] at h
    exact ⟨hlen, Option.some.inj h⟩
  · rw [addrFromBytes_of_length_ne hlen] at h
    cases h

theorem exec_addr4FromBytes_rawLayout {s : State} {bits : BitVec 32} (hbuf : s.req.buf = rawLayout (.v4 bits)) :
    exec .addr4FromBytes s =
      .next { s with rsp := { status := some 0, addr := some (.v4 bits) }, cur := none } := by
  have hlen : s.req.buf.length = 4 := by rw [hbuf]; rfl
  rw [exec_addr4FromBytes, withBuf_next (le_maxBufLen (by omega)), addrFromBytes_of_length hlen, hbuf,
    beN_rawLayout_v4]
  rfl

theorem exec_addr6FromBytes_rawLayout {s : State} {bits : BitVec 128} (hbuf : s.req.buf = rawLayout (.v6 bits)) :
    exec .addr6FromBytes s =
      .next { s with rsp := { status := some 0, addr := some (.v6 bits) }, cur := none } := by
  have hlen : s.req.buf.length = 16 := by rw [hbuf]; rfl
  rw [exec_addr6FromBytes, withBuf_next (le_maxBufLen (by omega)), addrFromBytes_of_length hlen, hbuf,
    beN_rawLayout_v6]
  rfl

/-- Where a FROM_BYTES operation answers an address, the buffer held its raw bytes. -/
theorem buf_eq_rawLayout_of_exec {i : Instr} {s t : State} {a : NetAddr}
    (hi : i = .addr4FromBytes ∨ i = .addr6FromBytes) (h : exec i s = .next t) (ha : t.rsp.addr = some a) :
    s.req.buf = rawLayout a := by
  obtain rfl | rfl := hi
  · rw [exec_addr4FromBytes] at h
    obtain ⟨-, rfl⟩ := withBuf_eq_next h
    rw [complete_rsp] at ha
    obtain ⟨hlen, rfl⟩ := addr_endResponse_addrFromBytes ha
    exact (rawLayout_v4_beN hlen).symm
  · rw [exec_addr6FromBytes] at h
    obtain ⟨-, rfl⟩ := withBuf_eq_next h
    rw [complete_rsp] at ha
    obtain ⟨hlen, rfl⟩ := addr_endResponse_addrFromBytes ha
    exact (rawLayout_v6_beN hlen).symm

/-- Settles O43: four bytes are the raw bytes of the address they denote, and no other length is accepted. -/
theorem addr4FromBytesResult : Obligations.Addr4FromBytesResult := by
  intro s hmax
  refine ⟨fun bits hbuf => exec_addr4FromBytes_rawLayout hbuf, fun hlen => ⟨_, (rawLayout_v4_beN hlen).symm⟩,
    fun hlen => ?_⟩
  rw [exec_addr4FromBytes, withBuf_next hmax, addrFromBytes_of_length_ne hlen]
  rfl

/-- Settles O44: sixteen bytes are the raw bytes of the address they denote, and no other length is accepted. -/
theorem addr6FromBytesResult : Obligations.Addr6FromBytesResult := by
  intro s hmax
  refine ⟨fun bits hbuf => exec_addr6FromBytes_rawLayout hbuf, fun hlen => ⟨_, (rawLayout_v6_beN hlen).symm⟩,
    fun hlen => ?_⟩
  rw [exec_addr6FromBytes, withBuf_next hmax, addrFromBytes_of_length_ne hlen]
  rfl

/-- Settles O45: the big-endian bytes of the bit pattern are its bytes from the most significant down. -/
theorem addrToBytesResult : Obligations.AddrToBytesResult := exec_addrToBytes_eq

/-- Settles O46: both directions pass through the raw bytes of the address. -/
theorem rawRoundTrip : Obligations.RawRoundTrip := by
  refine ⟨fun s t u i hi h haddr => ?_, fun s t u h hbuf => ?_⟩
  · rw [buf_eq_rawLayout_of_exec hi h haddr]
    exact exec_addrToBytes_eq u
  · rw [exec_addrToBytes_eq] at h
    cases h
    have hu : u.req.buf = rawLayout s.req.addrA := (Option.some.inj hbuf).symm
    cases ha : s.req.addrA with
    | v4 bits => exact exec_addr4FromBytes_rawLayout (ha ▸ hu)
    | v6 bits => exact exec_addr6FromBytes_rawLayout (ha ▸ hu)

end Sys2Proof.Machine
end

section
/-! Scope: address equality (R106, R107). -/

namespace Sys2Proof.Machine

theorem addrEq_eq_true_iff (a b : NetAddr) : addrEq a b = true ↔
    (∃ x : BitVec 32, a = .v4 x ∧ b = .v4 x) ∨ ∃ x : BitVec 128, a = .v6 x ∧ b = .v6 x := by
  match a, b with
  | .v4 _, .v4 _ | .v6 _, .v6 _ => simpa [addrEq] using eq_comm
  | .v4 _, .v6 _ | .v6 _, .v4 _ => simp [addrEq]

/-- Settles O47: the response is what `addrEq` answers. -/
theorem addrEqResult : Obligations.AddrEqResult := fun s => ⟨_, exec_addrEq s, addrEq_eq_true_iff _ _⟩

end Sys2Proof.Machine
end

section
/-! Scope: the text of an address, both ways (R108 to R114). Of the collaborators only their laws are used. -/

namespace Sys2Proof.Machine

theorem exec_addr4FromText_of_some {s : State} {bits : BitVec 32} (hlen : s.req.text.length ≤ Config.maxTextLen)
    (h : collab4.parse s.req.text = some bits) : exec .addr4FromText s =
      .next { s with rsp := { status := some 0, addr := some (.v4 bits) }, cur := none } := by
  rw [exec_addr4FromText, withText_next hlen, h]; rfl

theorem exec_addr6FromText_of_some {s : State} {bits : BitVec 128} (hlen : s.req.text.length ≤ Config.maxTextLen)
    (h : collab6.parse s.req.text = some bits) : exec .addr6FromText s =
      .next { s with rsp := { status := some 0, addr := some (.v6 bits) }, cur := none } := by
  rw [exec_addr6FromText, withText_next hlen, h]; rfl

theorem exec_addr4FromText_of_none {s : State} (hlen : s.req.text.length ≤ Config.maxTextLen)
    (h : collab4.parse s.req.text = none) : exec .addr4FromText s =
      .next { s with rsp := { status := some 5, errText := some s.req.text }, cur := none } := by
  rw [exec_addr4FromText, withText_next hlen, h]; rfl

theorem exec_addr6FromText_of_none {s : State} (hlen : s.req.text.length ≤ Config.maxTextLen)
    (h : collab6.parse s.req.text = none) : exec .addr6FromText s =
      .next { s with rsp := { status := some 5, errText := some s.req.text }, cur := none } := by
  rw [exec_addr6FromText, withText_next hlen, h]; rfl

/-- Settles O48: an accepted text gives PARSE4's address, a rejected one the error. -/
theorem addr4FromTextResult : Obligations.Addr4FromTextResult := fun _ hlen =>
  ⟨fun _ => exec_addr4FromText_of_some hlen, exec_addr4FromText_of_none hlen⟩

/-- Settles O49: an accepted text gives PARSE6's address, a rejected one the error. -/
theorem addr6FromTextResult : Obligations.Addr6FromTextResult := fun _ hlen =>
  ⟨fun _ => exec_addr6FromText_of_some hlen, exec_addr6FromText_of_none hlen⟩

/-- A printable text holds only bytes of the range 0x21 to 0x7E (R111). -/
theorem allPrintable_iff {t : Text} : allPrintable t = true ↔ ∀ c ∈ t, 0x21 ≤ c.toNat ∧ c.toNat ≤ 0x7E := by
  simp [allPrintable, printable, Nat.ble_eq]

theorem allPrintable_eq_false {t : Text} (h : ∃ c ∈ t, c.toNat < 0x21 ∨ 0x7E < c.toNat) : allPrintable t = false := by
  obtain ⟨c, hc, hrange⟩ := h
  refine Bool.eq_false_iff.2 fun hall => ?_
  have := allPrintable_iff.1 hall c hc
  omega

/-- Settles O50: each such text is rejected by a law of the family's collaborator (R112 (c), (d)). -/
theorem textsAlwaysRejected : Obligations.TextsAlwaysRejected := by
  refine fun s hlen => ⟨fun hc i hi => ?_, fun hcolon => ?_, fun hcolon => ?_⟩
  · have hprint := allPrintable_eq_false hc
    obtain rfl | rfl := hi
    · exact exec_addr4FromText_of_none hlen (collab4.rejectsUnprintable _ hprint)
    · exact exec_addr6FromText_of_none hlen (collab6.rejectsUnprintable _ hprint)
  · exact exec_addr4FromText_of_none hlen (collab4.rejectsColon _ (hasByte_eq_true.2 hcolon))
  · exact exec_addr6FromText_of_none hlen (collab6.rejectsNoColon _ (hasByte_eq_false.2 hcolon))

theorem digitVals_map_decDigit {ds : List Nat} (h : ∀ d ∈ ds, d < 10) :
    digitVals decVal (ds.map decDigit) = some ds := by
  induction ds with
  | nil => rfl
  | cons d ds ih =>
    rw [List.forall_mem_cons] at h
    rw [List.map_cons, digitVals, (decDigit_spec h.1).1, ih h.2]

/-- Decimal digits, the first of them not 0 unless it is the only one, write their value (R114). -/
theorem isDecimalOf_map_decDigit {ds : List Nat} (h : ∀ d ∈ ds, d < 10) (hne : ds ≠ [])
    (hzero : ds.head? = some 0 → ds = [0]) : IsDecimalOf (ds.map decDigit) (valueBE 10 ds) :=
  ⟨ds, digitVals_map_decDigit h, hne, rfl, hzero⟩

theorem isDecimalOf_decByte {n : Nat} (h : n < 256) : IsDecimalOf (decByte n) n := by
  unfold decByte
  split_ifs with h10 h100
  · have hdec := isDecimalOf_map_decDigit (ds := [n]) (by simpa using h10) (by simp) (by simp)
    rwa [show valueBE 10 [n] = n by simp [valueBE]] at hdec
  · have hdec := isDecimalOf_map_decDigit (ds := [n / 10, n % 10]) (by simp; omega) (by simp) (by simp; omega)
    rwa [show valueBE 10 [n / 10, n % 10] = n by simp [valueBE]; omega] at hdec
  · have hdec := isDecimalOf_map_decDigit (ds := [n / 100, n / 10 % 10, n % 10]) (by simp; omega) (by simp)
      (by simp; omega)
    rwa [show valueBE 10 [n / 100, n / 10 % 10, n % 10] = n by simp [valueBE]; omega] at hdec

theorem toNat_byteAt {w : Nat} (v : BitVec w) (k : Nat) : (byteAt v k).toNat = v.toNat / 256 ^ k % 256 := by
  simp [byteAt, BitVec.extractLsb'_toNat, Nat.shiftRight_eq_div_pow, Nat.pow_mul]

/-- RENDER4 writes the four bytes, the first the most significant, joined by dots (R114). -/
theorem render4_eq (bits : BitVec 32) : render4 bits =
    decByte (byteAt bits 3).toNat ++ chDot :: (decByte (byteAt bits 2).toNat ++ chDot ::
      (decByte (byteAt bits 1).toNat ++ chDot :: decByte (byteAt bits 0).toNat)) := by
  simp only [toNat_byteAt]; rfl

/-- Settles O51: RENDER4 writes each of the four bytes in decimal. -/
theorem addrToTextIPv4 : Obligations.AddrToTextIPv4 := by
  intro s bits haddr
  have hdec := fun k => isDecimalOf_decByte (byteAt bits k).isLt
  refine ⟨_, _, _, _, hdec 3, hdec 2, hdec 1, hdec 0, ?_⟩
  rw [exec_addrToText, haddr, addrToText, render4_eq]
  rfl

theorem addrToText_ne_nil (a : NetAddr) : addrToText a ≠ [] := by
  cases a with
  | v4 bits => exact List.length_pos_iff.1 (render4_length bits).1
  | v6 bits => exact collab6.renderNonempty bits

/-- The text of an address fits the text registers (R112 (b)). -/
theorem addrToText_length_le (a : NetAddr) : (addrToText a).length ≤ Config.maxTextLen := by
  cases a with
  | v4 bits => exact le_maxTextLen (Nat.le_trans (render4_length bits).2 (by decide))
  | v6 bits => exact collab6.renderFits bits

theorem addrToText_printable (a : NetAddr) : allPrintable (addrToText a) = true := by
  cases a with
  | v4 bits => exact render4_printable bits
  | v6 bits => exact collab6.renderPrintable bits

/-- Settles O52: RENDER4 and every lawful RENDER6 write such a text. -/
theorem addrToTextFits : Obligations.AddrToTextFits := fun s =>
  ⟨addrToText s.req.addrA, exec_addrToText s, addrToText_ne_nil _, addrToText_length_le _,
    allPrintable_iff.1 (addrToText_printable _), fun _ haddr => by rw [haddr, addrToText]⟩

/-- Settles O53: the text fits, and the family's parser reads back what its renderer writes. -/
theorem textRoundTrip : Obligations.TextRoundTrip := by
  intro s t u h htext
  rw [exec_addrToText] at h
  cases h
  have hu : u.req.text = addrToText s.req.addrA := (Option.some.inj htext).symm
  have hlen : u.req.text.length ≤ Config.maxTextLen := hu ▸ addrToText_length_le _
  cases haddr : s.req.addrA with
  | v4 bits =>
    rw [haddr] at hu
    exact exec_addr4FromText_of_some hlen (by rw [hu]; exact collab4_parse_render4 bits)
  | v6 bits =>
    rw [haddr] at hu
    exact exec_addr6FromText_of_some hlen (by rw [hu]; exact collab6_parse_render bits)

end Sys2Proof.Machine
end

section
/-! Scope: the lookup of an OpCode (R32, R141), and a frame with no OpCode (R143, D12). -/

namespace Sys2Proof.Machine

/-- Settles O4: by the lookup in closed form. -/
theorem lookupHasOneEntry : Obligations.LookupHasOneEntry := by
  refine ⟨?_, fun o ho => ?_⟩
  · rw [lookup_eq, if_pos rfl]
  · rw [lookup_eq, if_neg ho]

/-- Settles O36: so short a frame is admitted, and its first read fails. -/
theorem frameDecodeShort : Obligations.FrameDecodeShort := by
  intro s hlen
  rw [exec_frameDecode, withBuf_next (le_maxBufLen (by omega)), frameDecode_short hlen]
  rfl

end Sys2Proof.Machine
end

section
/-! Scope: FRAME_DECODE against the wire instruction of its frame (R74, R140, R143). -/

namespace Sys2Proof.Machine

/-- The bytes that decode to a wire instruction are its OpCode and what follows (R74). -/
theorem decode_wireOpcode16le_eq_ok {bytes rest : List Byte} {i : Instr}
    (h : decode .wireOpcode16le bytes = .ok (i, rest)) :
    ∃ o, bytes = toLe16 o ++ rest ∧ i = decodeWireOpcode o := by
  match bytes with
  | [] | [_] => cases h
  | lo :: hi :: _ =>
    cases h
    exact ⟨le16 lo hi, by rw [toLe16_le16]; rfl, rfl⟩

/-- Settles O8: op-select 1 is FRAME_DECODE, which on a frame is the instruction of the frame's OpCode. -/
theorem issueRunsWireInstruction : Obligations.IssueRunsWireInstruction := by
  intro s rest i payload h hop hdecode
  obtain ⟨o, hbuf, rfl⟩ := decode_wireOpcode16le_eq_ok hdecode
  have hselected : selected s = .frameDecode := by rw [selected, hop]; rfl
  rw [step_of_issue h, hselected]
  exact exec_frameDecode_wire hbuf

end Sys2Proof.Machine
end

section
/-! Scope: the decode of a frame of OP_TODDATA: it is the decode of its payload, result and error (R143 to R145). -/

namespace Sys2Proof.Machine

/-- The OpCode of a frame is written low byte first (R54, R73). -/
theorem frameLayout_eq (o : OpCode) (payload : List Byte) : frameLayout o payload = toLe16 o ++ payload := by
  have hbytes := toLe16_le16 (byteAt o 0) (byteAt o 1)
  rw [le16_byteAt] at hbytes
  rw [hbytes]; rfl

/-- Any two bytes are the OpCode they denote, low byte first (R54). -/
theorem frameLayout_le16 (lo hi : Byte) (payload : List Byte) :
    frameLayout (le16 lo hi) payload = lo :: hi :: payload := by
  rw [frameLayout_eq, toLe16_le16]; rfl

/-- On a frame of OP_TODDATA, FRAME_DECODE and the wire instruction OpTodData end as `frameTod` of the payload. -/
theorem exec_todFrame {s : State} {payload : List Byte} (hbuf : s.req.buf = frameLayout Config.opTodData payload)
    (hlen : s.req.buf.length ≤ Config.maxBufLen) :
    exec .frameDecode s = .next (complete (frameTod Config.opTodData payload) s) ∧
      exec .opTodData s = .next (complete (frameTod Config.opTodData payload) s) := by
  have hwire : exec .opTodData s = .next (complete (frameTod Config.opTodData payload) s) := by
    rw [exec_opTodData, withBuf_next hlen, hbuf]; rfl
  have hframe : exec .frameDecode s = exec .opTodData s :=
    exec_frameDecode_wire (hbuf.trans (frameLayout_eq Config.opTodData payload))
  exact ⟨hframe.trans hwire, hwire⟩

/-- Settles O38: the payload decodes to the packet, whatever its reserved and trailing bytes. -/
theorem frameDecodeResult : Obligations.FrameDecodeResult := by
  intro s v reserved trailing hcount hreserved hbuf hlen
  have hdecode : frameTod Config.opTodData (payloadLayout v reserved ++ trailing) =
      .ok (.frame Config.opTodData (.todData v)) := by
    rw [frameTod, todDecode_payloadLayout trailing hcount hreserved]; rfl
  obtain ⟨hframe, hwire⟩ := exec_todFrame hbuf hlen
  rw [hframe, hwire, hdecode]
  exact ⟨rfl, rfl⟩

/-- Only a result has the status OK (R221). -/
theorem eq_ok_of_endResponse_status {x : Except BlockError Output} (h : (endResponse x).status = some 0) :
    ∃ o, x = .ok o := by
  cases x with
  | ok o => exact ⟨o, rfl⟩
  | error e => exact absurd (by simpa using h) (code_ne_zero e)

/-- Settles O39: TOD_DECODE and FRAME_DECODE wrap the result of one decode of the payload, and neither touches its
error. -/
theorem frameDecodePassesErrors : Obligations.FrameDecodePassesErrors := by
  intro s u w payload hbuf hlen hpayload hexec hstatus
  rw [exec_todDecode] at hexec
  obtain ⟨-, rfl⟩ := withBuf_eq_next hexec
  obtain ⟨hframe, hwire⟩ := exec_todFrame hbuf hlen
  rw [hpayload] at hstatus ⊢
  rw [hframe, hwire, frameTod]
  cases hp : todDecode payload with
  | ok p => exact absurd (by rw [hp]; rfl) hstatus
  | error e => exact ⟨rfl, rfl⟩

/-- A frame that decodes is OP_TODDATA and a payload that decodes, and the result is the payload's packet (R143). -/
theorem frameDecode_eq_ok {frame : List Byte} {out : Output} (h : frameDecode frame = .ok out) :
    ∃ payload p, frame = frameLayout Config.opTodData payload ∧ todDecode payload = .ok p ∧
      out = .frame Config.opTodData (.todData p) := by
  match frame with
  | [] | [_] => rw [frameDecode_short (by simp)] at h; cases h
  | lo :: hi :: payload =>
    rw [frameDecode_cons] at h
    split_ifs at h with ho
    rw [frameTod] at h
    cases hp : todDecode payload with
    | error e => rw [hp] at h; cases h
    | ok p =>
      rw [hp] at h
      cases h
      exact ⟨payload, p, by rw [← ho, frameLayout_le16], hp, rfl⟩

/-- Settles O40: a status of OK comes from a frame that decodes. -/
theorem responseOpcode : Obligations.ResponseOpcode := by
  intro s t hexec hstatus
  rw [exec_frameDecode] at hexec
  obtain ⟨-, rfl⟩ := withBuf_eq_next hexec
  rw [complete_rsp] at hstatus ⊢
  obtain ⟨out, hout⟩ := eq_ok_of_endResponse_status hstatus
  obtain ⟨payload, p, hbuf, -, rfl⟩ := frameDecode_eq_ok hout
  exact ⟨by rw [hout]; rfl, payload, hbuf⟩

end Sys2Proof.Machine
end

section
/-! Scope: the bytes FRAME_ENCODE writes, how many they are, and their decode (R146 to R149, R169 to R171). -/

namespace Sys2Proof.Machine

/-- Settles O33: a completed encode was of the packet in `req_pkt`, within capacity. -/
theorem encodedLengths : Obligations.EncodedLengths := by
  intro s t v
  refine ⟨fun hpkt hexec => ?_, fun hpkt hexec => ?_⟩
  · rw [exec_todEncode] at hexec
    obtain ⟨p, hp, -, rfl⟩ := withTodPacket_eq_next hexec
    cases hpkt.symm.trans hp
    exact ⟨todEncode v, rfl, todEncode_length v⟩
  · rw [exec_frameEncode] at hexec
    obtain ⟨p, hp, hcap, rfl⟩ := withPacketValue_eq_next hexec
    cases hpkt.symm.trans hp
    have hlen := frameEncode_length v
    exact ⟨frameEncode (.todData v), rfl, hlen, by omega, frameEncode_length_le hcap⟩

/-- A UID is written as its block (R77, R174). -/
theorem toBe_six_eq_uidBlock : (toBe 6 : Uid → List Byte) = uidBlock := by
  funext u
  simp [uidBlock, toBe_succ, toBe_zero]

/-- The bytes TOD_ENCODE writes are those of R76 and R77, with the reserved bytes zero (R169, R171). -/
theorem todEncode_eq_payloadLayout (v : TodPacket) : todEncode v = payloadLayout v zeroReserved := by
  rw [todEncode_eq, toBe_six_eq_uidBlock]
  simp [payloadLayout, zeroReserved, toBe_succ, toBe_zero]

/-- The bytes FRAME_ENCODE writes are those of R73 and R75: the OpCode comes first, and no identifier (R149). -/
theorem frameEncode_eq_frameLayout (v : TodPacket) :
    frameEncode (.todData v) = frameLayout Config.opTodData (payloadLayout v zeroReserved) := by
  rw [frameEncode_eq, todEncode_eq_payloadLayout, frameLayout_eq]

/-- Settles O41: the packet is an operand of FRAME_ENCODE, and its frame is the layout. -/
theorem frameEncodeResult : Obligations.FrameEncodeResult := by
  intro s v hpkt hcap
  rw [exec_frameEncode, withPacketValue_next hpkt hcap, frameEncode_eq_frameLayout]
  rfl

/-- A byte counts no more UIDs than the register holds (R175). -/
theorem TodPacket.CountConsistent.withinCapacity {v : TodPacket} (h : v.CountConsistent) : v.WithinCapacity := by
  have hcount := v.uidCount.isLt
  simp only [TodPacket.CountConsistent, TodPacket.WithinCapacity, Config.todMax] at *
  omega

/-- Settles O42: the frame of R146 fits every MAX_BUF_LEN, and FRAME_DECODE of it is the packet. -/
theorem frameRoundTrip : Obligations.FrameRoundTrip := by
  intro s v hpkt hcount
  refine ⟨_, _, frameEncodeResult s v hpkt hcount.withinCapacity, rfl, fun u hbuf => ?_⟩
  have hlen : u.req.buf.length ≤ Config.maxBufLen := by
    rw [hbuf, ← frameEncode_eq_frameLayout]
    exact le_maxBufLen (frameEncode_length_le hcount.withinCapacity)
  have hlayout : u.req.buf = frameLayout Config.opTodData (payloadLayout v zeroReserved ++ []) := by
    rw [hbuf, List.append_nil]
  exact (frameDecodeResult u v zeroReserved [] hcount rfl hlayout hlen).1

end Sys2Proof.Machine
end

section
/-! Scope: how TOD_DECODE ends once the command byte is there: an invalid command byte stops it (R163), a missing UID
stops it (R167), and what it accepts has a whole header and all its UIDs (R160, R178). -/

namespace Sys2Proof.Machine

/-- A byte that is no command is reported with the field name and the byte (R207, R224). -/
theorem cmdFromByte_error {c : Byte} (h0 : c ≠ 0x00) (hFF : c ≠ 0xFF) :
    cmdFromByte c = .error (.invalidEnumValue .command c) := by
  rw [cmdFromByte, if_neg h0, if_neg hFF]

/-- A command is written back as the byte it was read from (R206, R207). -/
theorem cmdToByte_of_cmdFromByte {c : Byte} {k : Command} (h : cmdFromByte c = .ok k) : cmdToByte k = c := by
  unfold cmdFromByte at h
  split_ifs at h with h0 hFF
  · cases h; exact h0.symm
  · cases h; exact hFF.symm

theorem lt_length_of_getElem? {buf : List Byte} {k : Nat} {c : Byte} (h : buf[k]? = some c) : k < buf.length :=
  (List.getElem?_eq_some_iff.1 h).1

/-- The byte at an offset, as a read of one byte gives it (R52). -/
def readByte (buf : List Byte) (k : Nat) : Byte := (memRead buf k 1).headD 0

theorem readByte_of_getElem? {buf : List Byte} {k : Nat} {c : Byte} (h : buf[k]? = some c) : readByte buf k = c :=
  Option.some.inj ((getElem?_eq_memRead_one (lt_length_of_getElem? h)).symm.trans h)

/-- The packet a payload's header describes, with the command its byte 12 denotes and the UIDs after it (R76, R160). -/
def headerPacket (payload : List Byte) (command : Command) (tod : List Uid) : TodPacket where
  protocolVersion := beN 16 (memRead payload 0 2)
  rdmVersion := readByte payload 2
  port := readByte payload 3
  bindingIndex := readByte payload 10
  net := readByte payload 11
  command := command
  address := readByte payload 13
  uidTotal := ⟨beN 16 (memRead payload 14 2)⟩
  blockCount := readByte payload 16
  uidCount := readByte payload 17
  tod := tod

/-- The seven reads up to the command byte pass, and its check stops the decode (R163, R229). -/
theorem todDecode_invalidCommand {payload : List Byte} {c : Byte} (hc : payload[12]? = some c) (h0 : c ≠ 0x00)
    (hFF : c ≠ 0xFF) : todDecode payload = .error (.invalidEnumValue .command c) := by
  have hlen := lt_length_of_getElem? hc
  have hcmd : cmdFromByte ((memRead payload 12 1).headD 0) = .error (.invalidEnumValue .command c) :=
    (congrArg cmdFromByte (readByte_of_getElem? hc)).trans (cmdFromByte_error h0 hFF)
  simp (disch := omega) only [todDecode, Cursor.start, rdBe_ok, rdByte_ok, rd_ok, bind, Except.bind, Nat.reduceAdd,
    hcmd]

/-- With the header there and its command byte valid, only the UIDs are left to read (R160). -/
theorem todDecode_of_header {payload : List Byte} {command : Command} (hlen : 18 ≤ payload.length)
    (hcmd : cmdFromByte (readByte payload 12) = .ok command) :
    todDecode payload = (rdUids (readByte payload 17).toNat ⟨payload, 18⟩).map fun r =>
      headerPacket payload command r.1 := by
  unfold readByte at hcmd
  simp (disch := omega) only [todDecode, Cursor.start, rdBe_ok, rdByte_ok, rd_ok, bind, Except.bind, Nat.reduceAdd,
    hcmd]
  rfl

/-- A payload that decodes has a whole header with a command byte and all its UIDs, and the packet is what they say
(R160, R163, R167). -/
theorem todDecode_eq_ok {payload : List Byte} {v : TodPacket} (h : todDecode payload = .ok v) :
    ∃ command, cmdFromByte (readByte payload 12) = .ok command ∧
      18 + 6 * (readByte payload 17).toNat ≤ payload.length ∧
      v = headerPacket payload command ((List.range (readByte payload 17).toNat).map (uidAt payload 18)) := by
  have hvalid : ∀ c, payload[12]? = some c → c = 0x00 ∨ c = 0xFF := by
    intro c hc
    by_contra hne
    obtain ⟨h0, hFF⟩ := not_or.1 hne
    rw [todDecode_invalidCommand hc h0 hFF] at h
    cases h
  have hlen : 18 ≤ payload.length := by
    by_contra hshort
    rw [todDecode_stopsInHeader (Nat.lt_of_not_le hshort) hvalid] at h
    cases h
  obtain ⟨command, hcmd⟩ := cmdFromByte_ok (hvalid _ (getElem?_eq_memRead_one (by omega)))
  rw [todDecode_of_header hlen hcmd] at h
  by_cases huids : 18 + 6 * (readByte payload 17).toNat ≤ payload.length
  · rw [rdUids_ok huids] at h
    cases h
    exact ⟨command, hcmd, huids, rfl⟩
  · rw [rdUids_error hlen (Nat.lt_of_not_le huids)] at h
    cases h

/-- A packet in the response of TOD_DECODE is the decode of the buffer (R34, R160). -/
theorem todDecode_eq_ok_of_exec {s t : State} {v : TodPacket} (h : exec .todDecode s = .next t)
    (hpkt : t.rsp.pkt = some (.tod v)) : todDecode s.req.buf = .ok v := by
  rw [exec_todDecode] at h
  obtain ⟨-, rfl⟩ := withBuf_eq_next h
  rw [complete_rsp] at hpkt
  cases hdecode : todDecode s.req.buf with
  | ok p => rw [hdecode] at hpkt; cases hpkt; rfl
  | error e => rw [hdecode] at hpkt; cases e <;> cases hpkt

/-- Settles O29: the reads before the command byte pass, and its check fails. -/
theorem todDecodeInvalidCommand : Obligations.TodDecodeInvalidCommand := by
  intro s c hc h0 hFF hlen
  rw [exec_todDecode, withBuf_next hlen, todDecode_invalidCommand hc h0 hFF]
  rfl

/-- Settles O30: the header passes, and `k` UIDs are all that fit behind it. -/
theorem todDecodeUidTruncated : Obligations.TodDecodeUidTruncated := by
  intro s c n k hc hvalid hn hk hlo hhi
  have hmax : s.req.buf.length ≤ Config.maxBufLen := le_maxBufLen (by have := n.isLt; omega)
  obtain ⟨command, hcmd⟩ := cmdFromByte_ok hvalid
  rw [← readByte_of_getElem? hc] at hcmd
  rw [exec_todDecode, withBuf_next hmax, todDecode_of_header (by omega) hcmd, readByte_of_getElem? hn,
    rdUids_error (by omega) (by omega), show (s.req.buf.length - 18) / 6 = k by omega]
  rfl

/-- Settles O31: the UIDs are read by the packet's own `uidCount`, which a byte bounds, and the zero packet, whose port
is 0, is decoded from its layout. -/
theorem todDecodeCountsUids : Obligations.TodDecodeCountsUids := by
  refine ⟨fun s t v hexec hpkt => ?_, ?_⟩
  · have hcount : v.CountConsistent := by
      have hends := ends_todDecode s.req.buf
      rwa [todDecode_eq_ok_of_exec hexec hpkt] at hends
    exact ⟨hcount, hcount.withinCapacity⟩
  · exact ⟨{ State.reset with req := { Request.reset with buf := payloadLayout TodPacket.zero zeroReserved } }, _,
      TodPacket.zero, todDecodeResult _ TodPacket.zero zeroReserved [] rfl rfl rfl (le_maxBufLen (by decide)),
      rfl, rfl⟩

end Sys2Proof.Machine
end

section
/-! Scope: the payload TOD_ENCODE writes, and the two round trips with TOD_DECODE (R169 to R177). The bytes of a payload
are followed as reads of it, which `memRead_add` joins. -/

namespace Sys2Proof.Machine

/-- A read in two parts is one read. -/
theorem memRead_add (buf : List Byte) (addr m n : Nat) :
    memRead buf addr (m + n) = memRead buf addr m ++ memRead buf (addr + m) n := by
  rw [memRead, List.take_add, List.drop_drop]; rfl

/-- A read of one byte that is there is that byte (R52). -/
theorem memRead_one {buf : List Byte} {k : Nat} (h : k < buf.length) : memRead buf k 1 = [readByte buf k] := by
  obtain ⟨b, hb⟩ := List.length_eq_one_iff.1 (memRead_length (n := 1) h)
  rw [readByte, hb]; rfl

/-- A field of `n` bytes that was read is written back as its bytes (R9). -/
theorem toBe_beN_memRead {buf : List Byte} {addr n w : Nat} (h : addr + n ≤ buf.length) (hw : w = 8 * n) :
    toBe n (beN w (memRead buf addr n)) = memRead buf addr n :=
  toBe_beN (memRead_length h) hw

/-- The blocks of the UIDs that were read are the bytes they were read from (R77, R167, R174). -/
theorem flatMap_uidAt {buf : List Byte} {cur n : Nat} (h : cur + 6 * n ≤ buf.length) :
    ((List.range n).map (uidAt buf cur)).flatMap (toBe 6) = memRead buf cur (6 * n) := by
  induction n with
  | zero => simp [memRead]
  | succ n ih =>
    have hlast : toBe 6 (uidAt buf cur n) = memRead buf (cur + 6 * n) 6 := toBe_beN_memRead (by omega) rfl
    rw [List.range_succ, List.map_append, List.flatMap_append, ih (by omega), Nat.mul_succ, memRead_add]
    simp [hlast]

/-- Encoding what a payload decoded to gives the payload's bytes, but for the reserved ones (R177): both are the reads
of the header fields in order, each written back as it was read, and of the UIDs. -/
theorem todEncode_of_todDecode {payload : List Byte} {v : TodPacket} (h : todDecode payload = .ok v) :
    todEncode v = payload.take 4 ++ zeroReserved ++ (payload.take (18 + 6 * v.uidCount.toNat)).drop 10 := by
  obtain ⟨command, hcmd, hlen, rfl⟩ := todDecode_eq_ok h
  have hfront : payload.take 4 = memRead payload 0 (2 + 1 + 1) := rfl
  have hback : (payload.take (18 + 6 * (readByte payload 17).toNat)).drop 10 =
      memRead payload 10 (1 + 1 + 1 + 1 + 2 + 1 + 1 + 6 * (readByte payload 17).toNat) := by
    rw [memRead, List.drop_take]
    congr 1
    omega
  rw [hfront, headerPacket, hback, todEncode_eq]
  -- the widths stay apart, so that `memRead_add` finds the fields
  simp (disch := omega) [-Nat.reduceAdd, memRead_add, memRead_one, toBe_beN_memRead, flatMap_uidAt,
    cmdToByte_of_cmdFromByte hcmd, zeroReserved]

/-- Settles O32: the packet is an operand of TOD_ENCODE, and its payload is the layout. -/
theorem todEncodeResult : Obligations.TodEncodeResult := by
  intro s v hpkt hcap
  rw [exec_todEncode, withTodPacket_next hpkt hcap, todEncode_eq_payloadLayout]
  rfl

/-- Settles O34: the payload of R169 fits every MAX_BUF_LEN, and TOD_DECODE of it is the packet. -/
theorem todRoundTrip : Obligations.TodRoundTrip := by
  intro s v hpkt hcount
  refine ⟨_, _, todEncodeResult s v hpkt hcount.withinCapacity, rfl, fun u hbuf => ?_⟩
  have hlen : u.req.buf.length ≤ Config.maxBufLen := by
    rw [hbuf, ← todEncode_eq_payloadLayout]
    exact le_maxBufLen (todEncode_length_le hcount.withinCapacity)
  have hlayout : u.req.buf = payloadLayout v zeroReserved ++ [] := by rw [hbuf, List.append_nil]
  exact todDecodeResult u v zeroReserved [] hcount rfl hlayout hlen

/-- Settles O35: the packet is a decoded one, so it is within capacity and its encoding is the payload's bytes. -/
theorem payloadBytesRoundTrip : Obligations.PayloadBytesRoundTrip := by
  intro s t u v hexec hpkt hu
  have hcap : v.WithinCapacity := (todDecodeCountsUids.1 s t v hexec hpkt).2
  rw [todEncodeResult u v hu hcap, ← todEncode_eq_payloadLayout,
    todEncode_of_todDecode (todDecode_eq_ok_of_exec hexec hpkt)]

end Sys2Proof.Machine
end

section
/-! Scope: the scalar wrapper types (R200 to R211). Of RENDER_HEX16 only its law is used. -/

namespace Sys2Proof.Machine

/-- The text of a raw value has that value, so no two raw values share a text (R203 (b), (c)). -/
theorem hexRenderer_render_injective : Function.Injective hexRenderer.render := fun a b h => by
  have hvalue : some a.toNat = some b.toNat := by rw [← hexTextValue_render a, h, hexTextValue_render]
  exact BitVec.eq_of_toNat_eq (Option.some.inj hvalue)

/-- Settles O54: the function is RENDER_HEX16 of the raw value. -/
theorem uidTotalTextResult : Obligations.UidTotalTextResult := by
  refine ⟨fun u => hexRenderer.render u.raw, fun s => exec_uidTotalToText s, fun u => hexTextValue_render u.raw,
    fun ⟨a⟩ ⟨b⟩ h => ?_⟩
  exact congrArg UidTotal.mk (hexRenderer_render_injective h)

/-- Settles O55: the two bytes convert by definition, and any other byte is the error. -/
theorem commandBytes : Obligations.CommandBytes := by
  refine ⟨rfl, rfl, fun c => ⟨?_, ?_, cmdFromByte_error⟩⟩
  · rintro rfl; exact cmdFromByte_cmdToByte .fullTod
  · rintro rfl; exact cmdFromByte_cmdToByte .nak

/-- Settles O56: each conversion undoes the other. -/
theorem commandRoundTrip : Obligations.CommandRoundTrip :=
  ⟨cmdFromByte_cmdToByte, fun _ _ => cmdToByte_of_cmdFromByte⟩

/-- Settles O57: net's 7 bits stand above the address byte, so the two do not overlap and the `|||` is a sum. -/
theorem portAddressView : Obligations.PortAddressView := by
  intro v
  have haddress : v.address.toNat < 2 ^ 8 := v.address.isLt
  calc (portAddress v).toNat
      = (v.net.toNat % 128) <<< 8 ||| v.address.toNat := by
        simp only [portAddress, BitVec.toNat_or, BitVec.toNat_shiftLeft, BitVec.toNat_setWidth,
          BitVec.extractLsb'_toNat, Nat.shiftRight_zero, Nat.shiftLeft_eq]
        congr 1 <;> omega
    _ = (v.net.toNat % 128) <<< 8 + v.address.toNat := (Nat.shiftLeft_add_eq_or_of_lt haddress _).symm
    _ = v.net.toNat % 128 * 256 + v.address.toNat := by rw [Nat.shiftLeft_eq]

theorem constructTod_protocolVersion (a : TodArgs) :
    (constructTod a).protocolVersion = a.protocolVersion.getD 14 := rfl

/-- Settles O58: the version is the one given, or else 14, and no field is built from the reserved bytes. -/
theorem constructionDefaults : Obligations.ConstructionDefaults := fun a =>
  ⟨fun h => by rw [constructTod_protocolVersion, h]; rfl, fun _ h => by rw [constructTod_protocolVersion, h]; rfl,
    fun _ => rfl⟩

end Sys2Proof.Machine
end

section
/-! Scope: the step of a block with no request to come (R239). -/

namespace Sys2Proof.Machine

theorem step_of_idle {s : State} (h : s.requester = []) : step s = .next s := by
  simp [step, h]

/-- Settles O11: with no action to come, `step` answers its own state. -/
theorem idleBlockWaits : Obligations.IdleBlockWaits := fun _ h => step_of_idle h

end Sys2Proof.Machine
end

section
/-! Scope: which requests are answered, which are refused and under what name (R240, R260), and with what status they
end (R221, R231). All of it is read off `answer`, which `exec` concludes with (`exec_eq_conclude`). -/

namespace Sys2Proof.Machine

/-- An operation refuses exactly where its answer is that refusal. -/
theorem exec_eq_refused_iff {i : Instr} {s : State} {e : Refusal} :
    exec i s = .refused e ↔ answer i s.req = .error e := by
  rw [exec_eq_conclude]
  cases answer i s.req <;> simp [conclude]

/-- Settles O19: the answer to the next request is a function of its own registers, and the outcome follows the answer;
the state it is issued in, `t` or `s`, is not looked at. -/
theorem noOperationAffectsTheNext : Obligations.NoOperationAffectsTheNext := by
  intro i j s t q _
  refine ⟨fun x hx => ?_, fun e he => ?_⟩
  · obtain ⟨r, hr, rfl⟩ := exec_eq_next_iff.1 hx
    exact ⟨complete r { t with req := q }, exec_eq_next_iff.2 ⟨r, hr, rfl⟩, by simp⟩
  · rw [exec_eq_refused_iff] at he ⊢
    exact he

/-! Where each kind of operand is answered. -/

section
variable {q : Request} {r : Except BlockError Output}

theorem bufAnswer_eq_ok_iff {f : List Byte → Except BlockError Output} :
    bufAnswer q f = .ok r ↔ q.buf.length ≤ Config.maxBufLen ∧ r = f q.buf := by
  rw [← bufFits_iff, bufAnswer]
  split_ifs with hfits <;> simp [hfits, eq_comm]

theorem textAnswer_eq_ok_iff {f : Text → Except BlockError Output} :
    textAnswer q f = .ok r ↔ q.text.length ≤ Config.maxTextLen ∧ r = f q.text := by
  rw [← textFits_iff, textAnswer]
  split_ifs with hfits <;> simp [hfits, eq_comm]

theorem pktAnswer_eq_ok_iff {p : TodPacket} {b : List Byte} :
    pktAnswer p b = .ok r ↔ p.WithinCapacity ∧ r = .ok (.bytes b) := by
  rw [TodPacket.WithinCapacity, ← fits_iff, pktAnswer]
  split_ifs with hfits <;> simp [hfits, eq_comm]

theorem answer_frameEncode_eq_ok_iff : answer .frameEncode q = .ok r ↔
    ∃ p : TodPacket, q.pkt = .packet (.todData p) ∧ p.WithinCapacity ∧
      r = .ok (.bytes (frameEncode (.todData p))) := by
  rw [answer]
  match q.pkt with
  | .packet (.todData p) => simp [pktAnswer_eq_ok_iff]
  | .tod _ => simp

theorem answer_todEncode_eq_ok_iff : answer .todEncode q = .ok r ↔
    ∃ p : TodPacket, q.pkt = .tod p ∧ p.WithinCapacity ∧ r = .ok (.bytes (todEncode p)) := by
  rw [answer]
  match q.pkt with
  | .tod p => simp [pktAnswer_eq_ok_iff]
  | .packet _ => simp

end

/-- The admitted requests are those that are answered (R240). -/
theorem admitted_iff_answer {i : Instr} {s : State} : Admitted i s ↔ ∃ r, answer i s.req = .ok r := by
  cases i
  case frameDecode | todDecode | addr4FromBytes | addr6FromBytes | opTodData | anyOtherWireOpcode =>
    simp [Admitted, answer, bufAnswer_eq_ok_iff]
  case addr4FromText | addr6FromText => simp [Admitted, answer, textAnswer_eq_ok_iff]
  case frameEncode => simp [Admitted, answer_frameEncode_eq_ok_iff]
  case todEncode => simp [Admitted, answer_todEncode_eq_ok_iff]
  case addrToBytes | addrToText | addrEq | uidTotalToText => simp [Admitted, answer]
  case reserved0 | reservedD | reservedE | reservedF => simp [Admitted, answer]

/-- Settles O20: an admitted request has an answer to complete with, and any other has a refusal. -/
theorem admittedRequestsComplete : Obligations.AdmittedRequestsComplete := by
  intro i s
  rw [admitted_iff_answer, exec_eq_conclude]
  cases answer i s.req with
  | ok r => exact ⟨fun _ => ⟨complete r s, rfl⟩, fun h => (h ⟨r, rfl⟩).elim⟩
  | error e => exact ⟨fun ⟨_, h⟩ => (nomatch h), fun _ => ⟨e, rfl⟩⟩

/-- Anything but a PacketValue within capacity is refused as FRAME_ENCODE's operand (R33, R240). -/
theorem withPacketValue_refused {s : State} {f : PacketValue → State}
    (h : ∀ p, s.req.pkt = .packet (.todData p) → Config.todMax < p.tod.length) :
    withPacketValue s f = .refused .operandNotOfType := by
  unfold withPacketValue
  split
  · rename_i p hp
    exact if_neg fun hfits => absurd (fits_iff.1 hfits) (Nat.not_le.2 (h p hp))
  · rfl

/-- Anything but a TodPacket within capacity is refused as TOD_ENCODE's operand (R33, R240). -/
theorem withTodPacket_refused {s : State} {f : TodPacket → State}
    (h : ∀ p, s.req.pkt = .tod p → Config.todMax < p.tod.length) :
    withTodPacket s f = .refused .operandNotOfType := by
  unfold withTodPacket
  split
  · rename_i p hp
    exact if_neg fun hfits => absurd (fits_iff.1 hfits) (Nat.not_le.2 (h p hp))
  · rfl

/-- Settles O21: each operation reads its operand by `withBuf`, `withText`, `withPacketValue` or `withTodPacket`, and
each of these refuses under one name. -/
theorem refusalsByName : Obligations.RefusalsByName := by
  intro s
  refine ⟨fun i hi hlen => ?_, fun i hi hlen => ?_, fun p hp => ?_, fun v hv => ?_,
    fun p hcap => ⟨fun hp => ?_, fun hp => ?_⟩⟩
  · simp only [List.mem_cons, List.not_mem_nil, or_false] at hi
    obtain rfl | rfl | rfl | rfl := hi <;>
      simp only [exec_frameDecode, exec_todDecode, exec_addr4FromBytes, exec_addr6FromBytes, withBuf_refused hlen]
  · simp only [List.mem_cons, List.not_mem_nil, or_false] at hi
    obtain rfl | rfl := hi <;>
      simp only [exec_addr4FromText, exec_addr6FromText, withText_refused hlen]
  · rw [exec_frameEncode]
    exact withPacketValue_refused fun p' hp' => nomatch hp.symm.trans hp'
  · rw [exec_todEncode]
    exact withTodPacket_refused fun p' hp' => nomatch hv.symm.trans hp'
  · rw [exec_frameEncode]
    refine withPacketValue_refused fun p' hp' => ?_
    cases hp.symm.trans hp'
    exact hcap
  · rw [exec_todEncode]
    refine withTodPacket_refused fun p' hp' => ?_
    cases hp.symm.trans hp'
    exact hcap

/-! The status an answer ends with. -/

/-- A computation with these error codes ends with status OK or with one of them. -/
theorem ErrorsIn.endResponse_status {codes : List (BitVec 3)} {x : Except BlockError Output} (h : ErrorsIn codes x) :
    ∃ c ∈ 0 :: codes, (endResponse x).status = some c := by
  cases x with
  | ok o => exact ⟨0, List.mem_cons_self, okResponse_status o⟩
  | error e => exact ⟨e.code, List.mem_cons_of_mem 0 (h e rfl), errorResponse_status e⟩

/-- Raw bytes of another length are InvalidAddressLength (R225). -/
theorem errorsIn_addrFromBytes (n : Nat) (make : List Byte → NetAddr) (b : List Byte) :
    ErrorsIn [4] (addrFromBytes n make b) := by
  unfold addrFromBytes
  split_ifs
  · exact errorsIn_ok _
  · exact errorsIn_error (by simp [BlockError.code])

/-- A text that is not parsed is InvalidAddressText (R227). -/
theorem errorsIn_addrFromText (t : Text) (parsed : Option NetAddr) : ErrorsIn [5] (addrFromText t parsed) := by
  cases parsed with
  | none => exact errorsIn_error (by simp [BlockError.code])
  | some a => exact errorsIn_ok _

/-- An answer ends with a status of the operation's row (R221). -/
theorem endResponse_status_of_answer {i : Instr} {q : Request} {r : Except BlockError Output}
    (h : answer i q = .ok r) : ∃ c ∈ possibleStatus i, (endResponse r).status = some c := by
  cases i
  case frameDecode =>
    rw [answer, bufAnswer_eq_ok_iff] at h
    obtain ⟨-, rfl⟩ := h
    exact (errorsIn_frameDecode q.buf).endResponse_status
  case todDecode =>
    rw [answer, bufAnswer_eq_ok_iff] at h
    obtain ⟨-, rfl⟩ := h
    exact (errorsIn_todDecode q.buf).map.endResponse_status
  case opTodData =>
    rw [answer, bufAnswer_eq_ok_iff] at h
    obtain ⟨-, rfl⟩ := h
    exact (errorsIn_todDecode (q.buf.drop 2)).map.endResponse_status
  case anyOtherWireOpcode raw =>
    rw [answer, bufAnswer_eq_ok_iff] at h
    obtain ⟨-, rfl⟩ := h
    exact ⟨1, List.mem_singleton_self 1, rfl⟩
  case addr4FromBytes | addr6FromBytes =>
    rw [answer, bufAnswer_eq_ok_iff] at h
    obtain ⟨-, rfl⟩ := h
    exact (errorsIn_addrFromBytes _ _ q.buf).endResponse_status
  case addr4FromText | addr6FromText =>
    rw [answer, textAnswer_eq_ok_iff] at h
    obtain ⟨-, rfl⟩ := h
    exact (errorsIn_addrFromText q.text _).endResponse_status
  case frameEncode =>
    obtain ⟨p, -, -, rfl⟩ := answer_frameEncode_eq_ok_iff.1 h
    exact (errorsIn_ok _).endResponse_status
  case todEncode =>
    obtain ⟨p, -, -, rfl⟩ := answer_todEncode_eq_ok_iff.1 h
    exact (errorsIn_ok _).endResponse_status
  case addrToBytes | addrToText | addrEq | uidTotalToText =>
    cases h
    exact (errorsIn_ok _).endResponse_status
  case reserved0 | reservedD | reservedE | reservedF => cases h

/-- Settles O15: the status is that of the answer the operation completes with. -/
theorem statusAmongPossible : Obligations.StatusAmongPossible := by
  intro i s t h
  obtain ⟨r, hr, rfl⟩ := exec_eq_next_iff.1 h
  rw [complete_rsp]
  exact endResponse_status_of_answer hr

/-- Settles O23: the request completes, and OK is the only status of its operation's row. -/
theorem totalOperationsFinishOk : Obligations.TotalOperationsFinishOk := by
  intro s i hi hadm
  have hrow : possibleStatus i = [0] := by
    simp only [List.mem_cons, List.not_mem_nil, or_false] at hi
    obtain rfl | rfl | rfl | rfl | rfl | rfl := hi <;> rfl
  obtain ⟨t, ht⟩ := (admittedRequestsComplete i s).1 hadm
  obtain ⟨c, hc, hstatus⟩ := statusAmongPossible i s t ht
  rw [hrow, List.mem_singleton] at hc
  exact ⟨t, ht, hc ▸ hstatus⟩

end Sys2Proof.Machine
end

section
/-! Scope: the machine right after reset (R38, R250). -/

namespace Sys2Proof.Machine

theorem reset_rsp_value (r : RspReg) : State.reset.rsp.value r = none := by
  cases r <;> rfl

/-- Settles O5: by the lookup in closed form, and because no response register holds a value that a read could give. -/
theorem resetHoldsNoResponse : Obligations.ResetHoldsNoResponse := by
  refine ⟨lookup_eq, fun r => readRsp_noValue (reset_rsp_value r), fun r rest => ?_, rfl⟩
  obtain ⟨hnone, -, -⟩ :=
    readFaultsWithoutValue { State.reset with requester := .read r :: rest } r rest rfl
  exact hnone (reset_rsp_value r)

end Sys2Proof.Machine
end

section
/-! Scope: the registers on the requester's side right after reset, which the model chooses (R250). -/

namespace Sys2Proof.Machine

/-- Settles O6: each conjunct reads one field off `State.reset` or `Request.reset`; `req_pkt` unfolds to
`TodPacket.zero`. -/
theorem resetRequestChoice : Obligations.ResetRequestChoice :=
  ⟨rfl, rfl, rfl, rfl, rfl, rfl, rfl, rfl, rfl⟩

end Sys2Proof.Machine
end
